-- ==== Sys2Proof/Word.lean ====
section
/-! DEFINITION. The value types of the block (spec/00_scope.md R13): bytes, 32-bit words, 64-bit register values. -/

namespace Sys2Proof

/-- An 8-bit unsigned value (R13). -/
abbrev Byte := BitVec 8

/-- A 32-bit unsigned value (R13), the width of the CRC (R9). -/
abbrev Word := BitVec 32

/-- A 64-bit value: sizes, ELEN, PAD_TARGET and PAD_FILL (R11), and the host's read and write data (log 9). -/
abbrev Dword := BitVec 64

end Sys2Proof
end

