-- ==== Sys2Proof/Config.lean ====
section
/-! DEFINITION. The constants the source fixes (spec/00_scope.md R9, R10) and the parameters a model takes as
arguments (R12). -/

namespace Sys2Proof

/-- The parameter `byteOrder` of R12: how four bytes form a word (spec/20_memory.md R51) and how the CRC lies in the
file (R52). -/
inductive ByteOrder where
  | le
  | be
deriving DecidableEq, Repr

/-- The parameters of R12. They are fixed for the machine; State holds them so that a statement about every state is a
statement about every choice of them (log 5). -/
structure Params where
  /-- `byteOrder` (R12). -/
  byteOrder : ByteOrder
  /-- `EBUF_BYTES` (R12, R46). -/
  ebufBytes : Nat
  /-- `MAX_IMAGE_BYTES` (R12, R117); `none` is "unbounded". -/
  maxImageBytes : Option Nat
deriving DecidableEq, Repr

namespace Config

/-- POLY, the generator polynomial (R9). -/
def poly : Word := 0x04C11DB7#32

/-- RPOLY, the reversed polynomial (R10). -/
def rpoly : Word := 0xEDB88320#32

/-- INIT_VALUE (R9). -/
def initValue : Word := 0xFFFFFFFF#32

/-- WORD_BYTES (R9). -/
def wordBytes : Nat := 4

/-- CRC_APPEND_BYTES (R9). -/
def crcAppendBytes : Nat := 4

/-- `EBUF_BYTES` of the machine of `State.reset`. OPEN in the spec (R12, D26), so it has no body: no proof can see
its value (log 5). -/
opaque ebufBytes : Nat

/-- `MAX_IMAGE_BYTES` of the machine of `State.reset`. OPEN in the spec (R12, D17), so it has no body (log 5). -/
opaque maxImageBytes : Option Nat

/-- `IR_BASE`, where a platform places the interface registers: OPEN and used by no rule (spec/20_memory.md R59). -/
opaque irBase : Nat

/-- The parameters of the machine of `State.reset`: the spec's value for `byteOrder` (R12), the open ones open. -/
def params : Params where
  byteOrder := .le
  ebufBytes := ebufBytes
  maxImageBytes := maxImageBytes

end Config

end Sys2Proof
end

