-- ==== Sys2Proof/Syntax.lean ====
section
/-! DEFINITION. The command set (spec/30_encoding.md R69, opcode_table.json), the host's moves, and the host program
lines with their pseudo-instructions (R79, R80). -/

namespace Sys2Proof

/-- The three commands of R69. Their operands are interface registers and memories, not fields of the word (R67). -/
inductive Instr where
  /-- `ENG_INIT`, no operands (R72). -/
  | engInit
  /-- `ENG_CRC32`, operands ELEN and EBUF (R70). -/
  | engCrc32
  /-- `TOOL_RUN`, operands PAD_REQ, PAD_TARGET, PAD_FILL and FILE (R71). -/
  | toolRun
deriving DecidableEq, Repr

/-- What the host can do to the block: the transactions of R79 and the reset of spec/70_reset_and_hazards.md R170.
`idle` is the model's own move: it says that the block takes a step before the host's next transaction (log 1). -/
inductive HostMove where
  /-- Host write of interface register number `reg`; writing register 0, CMD, issues a command (R22, R79). -/
  | wr (reg : Nat) (value : Dword)
  /-- Host read of interface register number `reg` (R79). -/
  | rd (reg : Nat)
  /-- Host write of one EBUF byte (R79, R46). -/
  | ebufWr (offset : Nat) (byte : Byte)
  /-- The host polls STATUS until BUSY = 0 (R79). -/
  | wait
  /-- The host lets the block take one step (log 1). -/
  | idle
  /-- Reset (R170). -/
  | reset
deriving DecidableEq, Repr

/-- The interface registers by name, with the numbers IR0 to IR10 of spec/10_state.md R21. -/
inductive Reg where
  | cmd | status | result | elen | padReq | padTarget | padFill | toolCrc | padLen | imgSize | seqState
deriving DecidableEq, Repr

/-- The number of an interface register (R21). -/
def Reg.number : Reg → Nat
  | .cmd => 0
  | .status => 1
  | .result => 2
  | .elen => 3
  | .padReq => 4
  | .padTarget => 5
  | .padFill => 6
  | .toolCrc => 7
  | .padLen => 8
  | .imgSize => 9
  | .seqState => 10

/-- The register a number names; 11 and above are reserved (R21). -/
def Reg.ofNumber? : Nat → Option Reg
  | 0 => some .cmd
  | 1 => some .status
  | 2 => some .result
  | 3 => some .elen
  | 4 => some .padReq
  | 5 => some .padTarget
  | 6 => some .padFill
  | 7 => some .toolCrc
  | 8 => some .padLen
  | 9 => some .imgSize
  | 10 => some .seqState
  | _ => none

/-- Whether the host may write the register (the "host access" column of R21). -/
def Reg.writable : Reg → Bool
  | .cmd | .elen | .padReq | .padTarget | .padFill => true
  | .status | .result | .toolCrc | .padLen | .imgSize | .seqState => false

/-- One line of a host program: the seven forms of R79 and the four pseudo-instructions of R80. Values are integers;
a negative one is stored in two's complement. -/
inductive AsmLine where
  | command (i : Instr)
  | wr (reg : Nat) (value : Int)
  | rd (reg : Nat)
  | ebufWr (offset : Nat) (byte : Byte)
  | wait
  | crc32 (len : Int)
  | runNopad
  | runPad (target fill : Int)
  | ebufLd (offset : Nat) (bytes : List Byte)
deriving DecidableEq, Repr

end Sys2Proof
end

