-- ==== Sys2Proof/WellFormed.lean ====
section
/-! DEFINITION. What a well-formed command word, host move and host program line are: the checks that need no state
(spec/30_encoding.md R68, R69, R79; spec/10_state.md R21, R26, R37). -/

namespace Sys2Proof

/-- Every command is well formed: the command word carries no operand (R67). -/
def Instr.wellFormed : Instr → Bool
  | .engInit => true
  | .engCrc32 => true
  | .toolRun => true

/-- A command word is well formed when RSVD = 0 and OPC is 0x01, 0x02 or 0x03 (R68). -/
def wellFormedCommandWord (w : Word) : Bool :=
  w.extractLsb' 8 24 == 0#24 &&
    (w.extractLsb' 0 8 == 1#8 || w.extractLsb' 0 8 == 2#8 || w.extractLsb' 0 8 == 3#8)

/-- A host write the interface accepts from a block that is neither busy nor halted (R37 (a) to (c), R68). -/
def wellFormedWrite (r : Reg) (v : Dword) : Bool :=
  match r with
  | .cmd => v.extractLsb' 32 32 == 0#32 && wellFormedCommandWord (v.setWidth 32)
  | .padReq => v == 0#64 || v == 1#64
  | r => r.writable

/-- A host move that breaks none of R37 (a), (b), (c), (f) and whose command word is one of R69. -/
def HostMove.wellFormed (p : Params) : HostMove → Bool
  | .wr reg v => match Reg.ofNumber? reg with
    | some r => wellFormedWrite r v
    | none => false
  | .rd reg => (Reg.ofNumber? reg).isSome
  | .ebufWr off _ => decide (off < p.ebufBytes)
  | .wait => true
  | .idle => true
  | .reset => true

/-- An integer that its 64-bit register can hold, unsigned or in two's complement (R79). -/
def fitsRegister (v : Int) : Bool := decide (-(2 ^ 63 : Int) ≤ v) && decide (v < 2 ^ 64)

/-- A line of a host program that expands to well-formed moves. -/
def AsmLine.wellFormed (p : Params) : AsmLine → Bool
  | .command i => i.wellFormed
  | .wr reg v => fitsRegister v && (HostMove.wr reg (BitVec.ofInt 64 v)).wellFormed p
  | .rd reg => (HostMove.rd reg).wellFormed p
  | .ebufWr off b => (HostMove.ebufWr off b).wellFormed p
  | .wait => true
  | .crc32 len => fitsRegister len
  | .runNopad => true
  | .runPad target fill => fitsRegister target && fitsRegister fill
  | .ebufLd off bytes => decide (off + bytes.length ≤ p.ebufBytes)

end Sys2Proof
end

