-- ==== Sys2Proof/Decode.lean ====
section
/-! DEFINITION. The decoder of command words, its encoder, and the expansion of host program lines into host moves
(spec/30_encoding.md R67 to R69, R73 to R75, R79, R80). -/

namespace Sys2Proof

/-- Why a command word stands for no command (R73 (a) and (b)). -/
inductive DecodeError where
  /-- RSVD, bits 31:8, is not 0. -/
  | reservedBits
  /-- OPC, bits 7:0, is none of 0x01, 0x02, 0x03. -/
  | unknownOpcode
deriving DecidableEq, Repr

/-- OPC, bits 7:0 of the command word (R68). -/
def opcField (w : Word) : BitVec 8 := w.extractLsb' 0 8

/-- RSVD, bits 31:8 of the command word (R68). -/
def rsvdField (w : Word) : BitVec 24 := w.extractLsb' 8 24

/-- The opcode map of R69. -/
def decodeOpc (opc : BitVec 8) : Except DecodeError Instr :=
  if opc = 0x01#8 then .ok .engInit
  else if opc = 0x02#8 then .ok .engCrc32
  else if opc = 0x03#8 then .ok .toolRun
  else .error .unknownOpcode

/-- The decoder, total on 32-bit words (R75), checking RSVD before OPC (R73). -/
def decode (w : Word) : Except DecodeError Instr :=
  if rsvdField w = 0#24 then decodeOpc (opcField w) else .error .reservedBits

/-- The opcode of a command (R69). -/
def Instr.opc : Instr → BitVec 8
  | .engInit => 0x01#8
  | .engCrc32 => 0x02#8
  | .toolRun => 0x03#8

/-- The command word of a command: OPC in bits 7:0, RSVD 0 (R68, R69). -/
def encode (i : Instr) : Word := 0#24 ++ i.opc

/-- What the decoder reads from a command of the opcode table, its bits numbered as the table numbers them. A command
is the value written to CMD, so there are no bytes to lay out; bits from `nbits` up are 0, and a number that is no
32-bit value is no command word (R67). -/
def decodeTableWord (nbits w : Nat) : Option Instr :=
  let v := w % 2 ^ nbits
  if v < 2 ^ 32 then
    match decode (BitVec.ofNat 32 v) with
    | .ok i => some i
    | .error _ => none
  else none

/-- The host moves a program line stands for (R79, R80). -/
def AsmLine.expand : AsmLine → List HostMove
  | .command i => [.wr 0 ((encode i).setWidth 64)]
  | .wr reg v => [.wr reg (BitVec.ofInt 64 v)]
  | .rd reg => [.rd reg]
  | .ebufWr off b => [.ebufWr off b]
  | .wait => [.wait]
  | .crc32 len => [.wr 3 (BitVec.ofInt 64 len), .wr 0 ((encode .engCrc32).setWidth 64), .wait]
  | .runNopad => [.wr 4 0#64, .wr 0 ((encode .toolRun).setWidth 64), .wait]
  | .runPad target fill =>
    [.wr 4 1#64, .wr 5 (BitVec.ofInt 64 target), .wr 6 (BitVec.ofInt 64 fill),
      .wr 0 ((encode .toolRun).setWidth 64), .wait]
  | .ebufLd off bytes => bytes.zipIdx.map fun (b, k) => .ebufWr (off + k) b

/-- The moves of a whole host program. -/
def assemble (lines : List AsmLine) : List HostMove := lines.flatMap AsmLine.expand

end Sys2Proof
end

