-- ==== Sys2Proof/Machine/State.lean ====
section
/-! DEFINITION. The state of the block and of the host around it, as plain data, and its value after reset
(spec/10_state.md, R44). An `Option` field is an element that can "hold no value" (spec/00_scope.md R17, log 7). -/

namespace Sys2Proof.Machine

/-- The causes of the source's taxonomy, each raised by one sequencer state (spec/60_exceptions.md R141 to R148). -/
inductive RunFailure where
  /-- R141 -/
  | invalidPaddingConfig
  /-- R142 -/
  | unalignedImageSize
  /-- R143 -/
  | fileOpenErrorRead
  /-- R144 -/
  | fileOpenErrorAppend
  /-- R145 -/
  | readError
  /-- R146 -/
  | writeErrorPad
  /-- R147 -/
  | writeErrorCrc
  /-- R148 -/
  | alreadyChecksummed
deriving DecidableEq, Repr

/-- The causes of an engine fault (R151). -/
inductive EngineCause where
  | tableNotBuilt
  | lenUnaligned
  | bounds
  | undefinedInput
deriving DecidableEq, Repr

/-- The causes of a refusal (spec/30_encoding.md R73, spec/10_state.md R37). -/
inductive RefusalCause where
  | illegalCommand
  | illegalAccess
  | unsetOperand
deriving DecidableEq, Repr

/-- What STATUS.CAUSE can hold (R76). -/
inductive Cause where
  | none
  | run (c : RunFailure)
  | engine (c : EngineCause)
  | refusal (c : RefusalCause)
deriving DecidableEq, Repr

/-- What STATUS.EXIT can hold (R77); code 7 is never written. `argParse` is produced by the CLI only. -/
inductive ExitCategory where
  | none
  | success
  | argParse
  | fileOpen
  | validation
  | alreadyChecksummed
  | write
deriving DecidableEq, Repr

/-- The sequencer states (R78). -/
inductive SeqState where
  | idle | start | openRead | sizeValidate | readBuffer | computeCrc | zeroCrcCheck | openAppend | pad | writeCrc
  | done | fail
deriving DecidableEq, Repr

/-- The fields of STATUS (R23). TBL_VALID is the flag of R36, which STATUS mirrors: one bit, held here. -/
structure Status where
  busy : Bool
  done : Bool
  fault : Bool
  refused : Bool
  tblValid : Bool
  cause : Cause
  exit : ExitCategory
deriving DecidableEq, Repr

/-- The interface registers that hold state (R21, R24 to R32); CMD holds none (R22) and STATUS is `Status`. -/
structure IfaceRegs where
  /-- RESULT (R24). -/
  result : Option Word
  /-- ELEN (R25). -/
  elen : Option Dword
  /-- PAD_REQ (R26). -/
  padReq : Option Bool
  /-- PAD_TARGET (R27). -/
  padTarget : Option Dword
  /-- PAD_FILL (R28). -/
  padFill : Option Dword
  /-- TOOL_CRC (R29). -/
  toolCrc : Option Word
  /-- PAD_LEN (R30). -/
  padLen : Option Dword
  /-- IMG_SIZE (R31). -/
  imgSize : Option Dword
  /-- SEQ_STATE (R32). -/
  seqState : SeqState
deriving DecidableEq, Repr

/-- A table of 256 bytes. -/
structure ByteTable where
  entries : List Byte
  size_eq : entries.length = 256
deriving DecidableEq, Repr

/-- The ENGINE's internal state (R33 to R35). -/
structure EngineRegs where
  /-- ACC (R33). -/
  acc : Option Word
  /-- WIDX (R34). -/
  widx : Option Dword
  /-- RT[0..255] (R35); one operation writes all entries, so all hold a value or none does. -/
  rt : Option ByteTable
deriving DecidableEq, Repr

/-- The TOOL's internal state (R38 to R40). -/
structure ToolRegs where
  /-- RUN_PAD_REQ (R38). -/
  runPadReq : Option Bool
  /-- RUN_TARGET, an integer (R38). -/
  runTarget : Option Int
  /-- RUN_FILL, an integer (R38). -/
  runFill : Option Int
  /-- RD_OPEN (R39). -/
  rdOpen : Bool
  /-- AP_OPEN (R39). -/
  apOpen : Bool
  /-- IMG, the Image Buffer (R40, R47). -/
  img : Option (List Byte)
  /-- PADBUF, the pad buffer (R40, R48). -/
  padbuf : Option (List Byte)
deriving DecidableEq, Repr

/-- EBUF (spec/20_memory.md R46): the bytes that hold a value, by offset, offsets strictly rising. An offset that is
not listed holds no value (log 8). -/
abbrev Memory := List Host.Cell

/-- The host's answer to an open call (R50). -/
inductive OpenAnswer where
  | ok
  | fail
deriving DecidableEq, Repr

/-- The host's answer to the read of the image (R50): all N bytes, or at most `k` of them. -/
inductive ReadAnswer where
  | all
  | short (k : Nat)
deriving DecidableEq, Repr

/-- The host's answer to an append (R50, R56): complete, or short and leaving the bytes `g`. -/
inductive WriteAnswer where
  | all
  | short (g : List Byte)
deriving DecidableEq, Repr

/-- The host: the image file, and, in fields of the model's own, what it will do and answer (log 1, 2, 19). -/
structure HostSide where
  /-- FILE (R49): absent or a byte sequence. -/
  file : Option (List Byte)
  /-- The host's moves still to come (log 1). -/
  script : List HostMove
  /-- The draws `d_open_read` still to come (R50). -/
  openReadAnswers : List OpenAnswer
  /-- The draws `d_read` still to come (R50). -/
  readAnswers : List ReadAnswer
  /-- The draws `d_open_append` still to come (R50). -/
  openAppendAnswers : List OpenAnswer
  /-- The draws `d_wpad` still to come (R50). -/
  padWriteAnswers : List WriteAnswer
  /-- The draws `d_wcrc` still to come (R50). -/
  crcWriteAnswers : List WriteAnswer
  /-- What the host's last register read returned; none before the first read and after a refused one (log 19). -/
  readValue : Option Dword
deriving DecidableEq, Repr

/-- The whole state. `params` is constant through every step (log 5). -/
structure State where
  params : Params
  status : Status
  regs : IfaceRegs
  engine : EngineRegs
  tool : ToolRegs
  /-- EBUF (R46). -/
  ebuf : Memory
  host : HostSide
deriving DecidableEq, Repr

/-- Where the model stops. Both reasons belong to states that no run from reset reaches; the spec's own engine faults
and refusals are next states (spec/60_exceptions.md R151, R157). -/
inductive Fault where
  /-- No rule of spec/ gives the block a step in this state, such as BUSY = 1 with neither unit executing. Raised by
  `blockStep`, `engineStep` and `toolStep`. Safe (log 16). -/
  | noRule
  /-- A step reads an internal element that holds no value where no rule says what that read does. Raised by the
  ENGINE's and the TOOL's steps. Safe (log 16). -/
  | readsNoValue (element : String)
deriving DecidableEq, Repr

/-- Why an instruction has no meaning. -/
inductive Refusal where
  /-- The instruction is not modelled. Raised by no arm of `exec`. Safe. -/
  | notModelled (mnemonic : String)
deriving DecidableEq, Repr

/-- What one step answers. -/
abbrev Result := Host.Outcome State Fault Refusal

/-- STATUS = 0x00000000 (spec/70_reset_and_hazards.md R170). -/
def Status.reset : Status where
  busy := false
  done := false
  fault := false
  refused := false
  tblValid := false
  cause := .none
  exit := .none

/-- The interface registers after reset (R44). -/
def IfaceRegs.reset : IfaceRegs where
  result := none
  elen := none
  padReq := none
  padTarget := none
  padFill := none
  toolCrc := none
  padLen := none
  imgSize := none
  seqState := .idle

/-- The ENGINE after reset (R44). -/
def EngineRegs.reset : EngineRegs where
  acc := none
  widx := none
  rt := none

/-- The TOOL after reset (R44). -/
def ToolRegs.reset : ToolRegs where
  runPadReq := none
  runTarget := none
  runFill := none
  rdOpen := false
  apOpen := false
  img := none
  padbuf := none

/-- A host that owns the file `file`, with no move and no answer to come (log 2, 19, 20). -/
def HostSide.launch (file : Option (List Byte)) : HostSide where
  file := file
  script := []
  openReadAnswers := []
  readAnswers := []
  openAppendAnswers := []
  padWriteAnswers := []
  crcWriteAnswers := []
  readValue := none

/-- The block after reset (R170), with parameters `p` and the host `h` (a launch names both, R79). -/
def State.launch (p : Params) (h : HostSide) : State where
  params := p
  status := .reset
  regs := .reset
  engine := .reset
  tool := .reset
  ebuf := []
  host := h

/-- The machine right after reset (R170): the parameters of `Config.params` (log 5) and a host whose FILE is absent
(log 6). -/
def State.reset : State := State.launch Config.params (HostSide.launch none)

end Sys2Proof.Machine
end

