-- ==== Sys2Proof/Machine/Crc.lean ====
section
/-! DEFINITION. The CRC datapath (spec/40_crc_engine.md R87 to R93) and the normative function it must compute
(R95 to R97). -/

namespace Sys2Proof.Machine

/-- `rev8`: bit i of the result is bit 7-i of `b` (spec/00_scope.md R14). -/
def rev8 (b : Byte) : Byte := b.reverse

/-- `rev32`: bit i of the result is bit 31-i of `w` (R14). -/
def rev32 (w : Word) : Word := w.reverse

/-- `f` applied `n` times, the `f^n` of R89 and R96. -/
def iterate {α : Type} (f : α → α) : Nat → α → α
  | 0, x => x
  | n + 1, x => iterate f n (f x)

/-- The Reversal Table `ENG_INIT` builds: entry i is `rev8(i)` (R87). -/
def revTable : ByteTable where
  entries := (List.range 256).map fun i => rev8 (BitVec.ofNat 8 i)
  size_eq := by simp

/-- A read of one entry of the Reversal Table. -/
def rtRead (t : ByteTable) (b : Byte) : Byte := t.entries[b.toNat]'(t.size_eq.symm ▸ b.isLt)

/-- Word reversal by four table reads (R88): byte k of the word lands reversed in byte 3-k. -/
def revw (t : ByteTable) (w : Word) : Word :=
  (rtRead t (w.extractLsb' 0 8)).setWidth 32 <<< 24
    ||| (rtRead t (w.extractLsb' 8 8)).setWidth 32 <<< 16
    ||| (rtRead t (w.extractLsb' 16 8)).setWidth 32 <<< 8
    ||| (rtRead t (w.extractLsb' 24 8)).setWidth 32

/-- One shift-and-XOR step against the reversed polynomial (R89). -/
def steplsb (r : Word) : Word := (r >>> 1) ^^^ (if r.getLsbD 0 then Config.rpoly else 0#32)

/-- The reversed-polynomial table, a combinational function of its byte (R89). -/
def ptab (b : Byte) : Word := iterate steplsb 8 (b.setWidth 32)

/-- One of the four rounds of a word (R91). -/
def crcRound (a : Word) : Word := (a >>> 8) ^^^ ptab (a.extractLsb' 0 8)

/-- Consuming one word (R92). -/
def wordstep (t : ByteTable) (a w : Word) : Word :=
  crcRound (crcRound (crcRound (crcRound (a ^^^ revw t w))))

/-- The bit step of the peripheral (R95). -/
def stepmsb (s : Word) : Word := (s <<< 1) ^^^ (if s.getLsbD 31 then Config.poly else 0#32)

/-- The word update of the peripheral (R96). -/
def upd (s w : Word) : Word := iterate stepmsb 32 (s ^^^ w)

/-- The word formed by the four bytes of one 4-byte group, lowest offset first (spec/20_memory.md R51). -/
def assembleWord (o : ByteOrder) (b0 b1 b2 b3 : Byte) : Word :=
  match o with
  | .le => b0.setWidth 32 ||| b1.setWidth 32 <<< 8 ||| b2.setWidth 32 <<< 16 ||| b3.setWidth 32 <<< 24
  | .be => b0.setWidth 32 <<< 24 ||| b1.setWidth 32 <<< 16 ||| b2.setWidth 32 <<< 8 ||| b3.setWidth 32

/-- The words `word(s, 0)`, `word(s, 1)`, ... of a byte sequence (R51). Bytes beyond the last whole group form no
word; no rule applies this to a length that is no multiple of 4 (R54, R97). -/
def wordsOf (o : ByteOrder) : List Byte → List Word
  | b0 :: b1 :: b2 :: b3 :: rest => assembleWord o b0 b1 b2 b3 :: wordsOf o rest
  | _ => []

/-- `bytes32(v)`: the four bytes that stand for a word in the file (R52). -/
def bytes32 (o : ByteOrder) (v : Word) : List Byte :=
  match o with
  | .le => [v.extractLsb' 0 8, v.extractLsb' 8 8, v.extractLsb' 16 8, v.extractLsb' 24 8]
  | .be => [v.extractLsb' 24 8, v.extractLsb' 16 8, v.extractLsb' 8 8, v.extractLsb' 0 8]

/-- `fill(n, v)` (R15). -/
def fillBytes (n : Nat) (b : Byte) : List Byte := List.replicate n b

/-- The ENGINE function `crc32(s)`, in the peripheral's own terms (R97). -/
def crc32 (o : ByteOrder) (s : List Byte) : Word := (wordsOf o s).foldl upd Config.initValue

/-- The accumulator after the word steps of a whole byte sequence (R102). -/
def accAfter (t : ByteTable) (o : ByteOrder) (s : List Byte) : Word :=
  (wordsOf o s).foldl (wordstep t) Config.initValue

end Sys2Proof.Machine
end

