-- ==== Sys2Proof/Machine/Flags.lean ====
section
/-! DEFINITION. The codes of STATUS, SEQ_STATE and the exit categories, and the STATUS word the host reads
(spec/10_state.md R23, spec/30_encoding.md R76 to R78). -/

namespace Sys2Proof.Machine

/-- The codes of the source's taxonomy (R76, codes 1 to 8). -/
def RunFailure.code : RunFailure → BitVec 8
  | .invalidPaddingConfig => 0x01#8
  | .unalignedImageSize => 0x02#8
  | .fileOpenErrorRead => 0x03#8
  | .fileOpenErrorAppend => 0x04#8
  | .readError => 0x05#8
  | .writeErrorPad => 0x06#8
  | .writeErrorCrc => 0x07#8
  | .alreadyChecksummed => 0x08#8

/-- The codes of the engine faults (R76, R151). -/
def EngineCause.code : EngineCause → BitVec 8
  | .tableNotBuilt => 0x10#8
  | .lenUnaligned => 0x11#8
  | .bounds => 0x12#8
  | .undefinedInput => 0x13#8

/-- The codes of the refusals (R76). -/
def RefusalCause.code : RefusalCause → BitVec 8
  | .illegalCommand => 0x20#8
  | .illegalAccess => 0x21#8
  | .unsetOperand => 0x22#8

/-- STATUS[15:8] (R76). -/
def Cause.code : Cause → BitVec 8
  | .none => 0x00#8
  | .run c => c.code
  | .engine c => c.code
  | .refusal c => c.code

/-- STATUS[18:16] (R77). -/
def ExitCategory.code : ExitCategory → BitVec 3
  | .none => 0#3
  | .success => 1#3
  | .argParse => 2#3
  | .fileOpen => 3#3
  | .validation => 4#3
  | .alreadyChecksummed => 5#3
  | .write => 6#3

/-- The exit category of a run that failed with cause `c` (R77, R149). -/
def category : RunFailure → ExitCategory
  | .invalidPaddingConfig => .validation
  | .unalignedImageSize => .validation
  | .fileOpenErrorRead => .fileOpen
  | .fileOpenErrorAppend => .fileOpen
  | .readError => .validation
  | .writeErrorPad => .write
  | .writeErrorCrc => .write
  | .alreadyChecksummed => .alreadyChecksummed

/-- SEQ_STATE (R78). -/
def SeqState.code : SeqState → BitVec 8
  | .idle => 0#8
  | .start => 1#8
  | .openRead => 2#8
  | .sizeValidate => 3#8
  | .readBuffer => 4#8
  | .computeCrc => 5#8
  | .zeroCrcCheck => 6#8
  | .openAppend => 7#8
  | .pad => 8#8
  | .writeCrc => 9#8
  | .done => 10#8
  | .fail => 11#8

/-- The 32-bit STATUS word (R23): bits 31:19 and 7:5 read 0. -/
def Status.word (st : Status) : Word :=
  0#13 ++ st.exit.code ++ st.cause.code ++ 0#3 ++ BitVec.ofBool st.tblValid ++ BitVec.ofBool st.refused
    ++ BitVec.ofBool st.fault ++ BitVec.ofBool st.done ++ BitVec.ofBool st.busy

end Sys2Proof.Machine
end

