-- ==== Sys2Proof/Machine/Ops.lean ====
section
/-! DEFINITION. The operations every unit shares: EBUF, the outcomes the spec describes (refusal, engine fault, failure
exit, reset), the issue conditions of a command, the ENGINE's service to the TOOL, and the host's file calls. -/

namespace Sys2Proof.Machine

/-! ### EBUF (spec/20_memory.md R46) -/

/-- The canonical form of EBUF: offsets strictly rising (log 8). -/
abbrev Memory.wf (m : Memory) : Prop := m.Pairwise fun x y => x.1 < y.1

/-- `EBUF.read(i)`: the byte at offset `i`, or none where it holds no value (R46). -/
def Memory.read : Memory → Nat → Option Byte
  | [], _ => none
  | (k, v) :: m, i => if k = i then some v else Memory.read m i

/-- The host's write of one byte at offset `i` (R46), keeping the offsets in order. -/
def Memory.write : Memory → Nat → Byte → Memory
  | [], i, b => [(i, b)]
  | (k, v) :: m, i, b =>
    if i < k then (i, b) :: (k, v) :: m
    else if i = k then (i, b) :: m
    else (k, v) :: Memory.write m i b

/-! ### Outcomes the spec describes -/

/-- The block is halted: an engine fault or a refusal is recorded (spec/60_exceptions.md R157). -/
def halted (s : State) : Bool := s.status.fault || s.status.refused

/-- `refuse(c)` (spec/30_encoding.md R73, spec/10_state.md R37). -/
def refuse (c : RefusalCause) (s : State) : State :=
  { s with status.refused := true, status.cause := .refusal c }

/-- `raise EngineFault(c)` (R151): FAULT and CAUSE are recorded, BUSY clears, DONE stays, ACC and WIDX lose their
values. Nothing returns from it but reset (R155, R157). -/
def raiseEngineFault (c : EngineCause) (s : State) : State :=
  { s with
    status.fault := true, status.cause := .engine c, status.busy := false
    engine.acc := none, engine.widx := none }

/-- `fail(c)`, the TOOL's failure exit (R153). -/
def failExit (c : RunFailure) (s : State) : State :=
  { s with
    tool.img := none, tool.padbuf := none, tool.rdOpen := false, tool.apOpen := false
    status.cause := .run c, status.exit := category c
    regs.seqState := .fail
    status.busy := false, status.done := true }

/-- Reset (spec/70_reset_and_hazards.md R170, R172): every element of the block takes its reset value; FILE and the
rest of the host's side, and the parameters, stay (log 18). -/
def resetBlock (s : State) : State := State.launch s.params s.host

/-! ### Commands -/

/-- The first two writes of every command: BUSY <- 1, DONE <- 0 (R103, R104, R114). -/
def beginCommand (s : State) : State := { s with status.busy := true, status.done := false }

/-- The successful end of an ENGINE command: CAUSE <- NONE, BUSY <- 0, DONE <- 1 (R103, R104). -/
def completeCommand (s : State) : State :=
  { s with status.cause := .none, status.busy := false, status.done := true }

/-- The issue conditions (e) and (d) of R73, in the order of its pseudocode: a halted block ignores the command, a
busy one refuses it; otherwise `k` goes on. -/
def atIssue (s : State) (k : State → Result) : Result :=
  if halted s then .next s
  else if s.status.busy then .next (refuse .illegalAccess s)
  else k s

/-! ### The Reversal Table and the internal CRC request -/

/-- RT[i] <- rev8(i) for every i; TBL_VALID <- 1 (R87, R103, R114). -/
def buildTable (s : State) : State := { s with engine.rt := some revTable, status.tblValid := true }

/-- The Reversal Table where TBL_VALID = 1; every use of it requires that (R88, R104). A table that holds no value is
as good as not built (log 17). -/
def builtTable (s : State) : Option ByteTable := if s.status.tblValid then s.engine.rt else none

/-- `engine_request(s)` (R102), handing its value to `k`. It writes ACC, and WIDX, which holds no value once the
computation is over (R34, log 11). -/
def engineRequest (bytes : List Byte) (s : State) (k : Word → State → Result) : Result :=
  match builtTable s with
  | none => .next (raiseEngineFault .tableNotBuilt s)
  | some t =>
    let acc := accAfter t s.params.byteOrder bytes
    k (revw t acc) { s with engine.acc := some acc, engine.widx := none }

/-! ### File calls (spec/20_memory.md R50, R55, R56) -/

/-- Goes on with the host's answer to a file call: the forced one where only one is possible, else the next of the
queue. A call the host has not answered waits: no step is taken (R161, log 2, log 4). -/
def onAnswer {α : Type} (s : State) (forced : Option α) (queue : List α) (k : α → Result) : Result :=
  match forced, queue with
  | some a, _ => k a
  | none, a :: _ => k a
  | none, [] => .next s

/-- `d_read`, the number of bytes delivered of `n` (R50, log 3). -/
def ReadAnswer.delivered (n : Nat) : ReadAnswer → Nat
  | .all => n
  | .short k => min k n

/-- `MemRead(FILE, 0, N)` with draw `d`: FILE[0..d) (R55). -/
def memRead (file : List Byte) (d : Nat) : List Byte := file.take d

/-- What an append of `bytes` adds to FILE (R56): all of it, or fewer bytes of any value (log 3). -/
def WriteAnswer.appended (bytes : List Byte) : WriteAnswer → List Byte
  | .all => bytes
  | .short g => if g.length < bytes.length then g else bytes

/-- Whether an append of `bytes` is complete (R56). -/
def WriteAnswer.complete (bytes : List Byte) : WriteAnswer → Bool
  | .all => true
  | .short g => decide (bytes.length ≤ g.length)

/-- `MemWrite(FILE, append, bytes)` (R56). -/
def memAppend (file bytes : List Byte) (a : WriteAnswer) : List Byte := file ++ a.appended bytes

end Sys2Proof.Machine
end

