-- ==== Sys2Proof/Machine/Operands.lean ====
section
/-! DEFINITION. The operands of the commands: the registers they read at issue (spec/30_encoding.md R70, R71), the
words ENG_CRC32 reads from EBUF (spec/40_crc_engine.md R104), and the latched padding descriptor and its validation
(spec/10_state.md R38, spec/41_append_tool.md R118). -/

namespace Sys2Proof.Machine

/-- The operands of TOOL_RUN (R71): `descriptor` is none without padding, else target and fill as the signed integers
their 64 bits spell. -/
structure ToolOperands where
  descriptor : Option (Int × Int)
deriving DecidableEq, Repr

/-- The operands of TOOL_RUN, or none where one that is needed holds no value (R71, R73 (c)). -/
def toolOperands (s : State) : Option ToolOperands :=
  match s.regs.padReq with
  | none => none
  | some false => some ⟨none⟩
  | some true =>
    match s.regs.padTarget, s.regs.padFill with
    | some target, some fill => some ⟨some (target.toInt, fill.toInt)⟩
    | _, _ => none

/-- The word ENG_CRC32 reads at word index `i`, offsets 4i to 4i+3 (R51, R57), or none where one of its bytes holds no
value. -/
def ebufWord (o : ByteOrder) (m : Memory) (i : Nat) : Option Word :=
  match m.read (4 * i), m.read (4 * i + 1), m.read (4 * i + 2), m.read (4 * i + 3) with
  | some b0, some b1, some b2, some b3 => some (assembleWord o b0 b1 b2 b3)
  | _, _, _, _ => none

/-- `pad_ok(target, fill, N)`, on integers (R118). -/
def padOk (target fill : Int) (n : Nat) : Bool :=
  decide (0 ≤ target) && decide (target % 4 = 0) && decide ((n : Int) + 4 ≤ target) && decide (0 ≤ fill)
    && decide (fill ≤ 255)

/-- The padding descriptor the run latched at START: none without padding (R38). In a run all it reads hold values
(log 16). -/
def latchedPadding (s : State) : Except Fault (Option (Int × Int)) :=
  match s.tool.runPadReq with
  | none => .error (.readsNoValue "RUN_PAD_REQ")
  | some false => .ok none
  | some true =>
    match s.tool.runTarget, s.tool.runFill with
    | some target, some fill => .ok (some (target, fill))
    | none, _ => .error (.readsNoValue "RUN_TARGET")
    | _, none => .error (.readsNoValue "RUN_FILL")

/-- PADBUF of a run with this descriptor on an image of `n` bytes: fill(target - 4 - n, fill) (R48, R123). -/
def padOf (target fill : Int) (n : Nat) : List Byte := fillBytes (target - 4 - n).toNat (BitVec.ofInt 8 fill)

/-- Whether `n` is more than a bounded MAX_IMAGE_BYTES (R117). -/
def exceedsMaxImage (p : Params) (n : Nat) : Bool :=
  match p.maxImageBytes with
  | none => false
  | some m => decide (m < n)

end Sys2Proof.Machine
end

