-- ==== Sys2Proof/Machine/Engine.lean ====
section
/-! DEFINITION. The CRC ENGINE family: the meanings of ENG_INIT and ENG_CRC32 at issue, and the word and final steps
of ENG_CRC32 (spec/40_crc_engine.md R103, R104). -/

namespace Sys2Proof.Machine

/-- ENG_INIT, one step (R103). -/
def execEngInit (s : State) : Result :=
  atIssue s fun s => .next (completeCommand (buildTable (beginCommand s)))

/-- The issue step of ENG_CRC32 with length `l`, after BUSY and DONE are written: its faults in their order of
priority, else ACC and WIDX start (R104, R152). -/
def startCrc32 (l : Dword) (s : State) : State :=
  if builtTable s = none then raiseEngineFault .tableNotBuilt s
  else if l.toNat % 4 ≠ 0 then raiseEngineFault .lenUnaligned s
  else if s.params.ebufBytes < l.toNat then raiseEngineFault .bounds s
  else { s with engine.acc := some Config.initValue, engine.widx := some 0#64 }

/-- ENG_CRC32, its issue step (R104); an ELEN that holds no value is UNSET_OPERAND (R70, log 13, log 21). -/
def execEngCrc32 (s : State) : Result :=
  atIssue s fun s =>
    match s.regs.elen with
    | none => .next (refuse .unsetOperand s)
    | some l => .next (startCrc32 l (beginCommand s))

/-- The word step of ENG_CRC32 at word index `i` (R104). -/
def engineWordStep (i : Dword) (s : State) : Result :=
  match builtTable s with
  | none => .next (raiseEngineFault .tableNotBuilt s)
  | some t =>
    match ebufWord s.params.byteOrder s.ebuf i.toNat with
    | none => .next (raiseEngineFault .undefinedInput s)
    | some w =>
      match s.engine.acc with
      | none => .fault (.readsNoValue "ACC")
      | some a => .next { s with engine.acc := some (wordstep t a w), engine.widx := some (i + 1#64) }

/-- The final step of ENG_CRC32 (R104, R93). -/
def engineFinalStep (s : State) : Result :=
  match builtTable s with
  | none => .next (raiseEngineFault .tableNotBuilt s)
  | some t =>
    match s.engine.acc with
    | none => .fault (.readsNoValue "ACC")
    | some a =>
      .next (completeCommand
        { s with regs.result := some (revw t a), engine.acc := none, engine.widx := none })

/-- The step of an ENG_CRC32 in progress with WIDX = `i`: a word step while WIDX < L/4, the final step at L/4 (R104).
L is ELEN, which no write can change while BUSY = 1 (R37 (d), log 12). -/
def engineStep (i : Dword) (s : State) : Result :=
  match s.regs.elen with
  | none => .fault (.readsNoValue "ELEN")
  | some l =>
    if i.toNat < l.toNat / 4 then engineWordStep i s
    else if i.toNat = l.toNat / 4 then engineFinalStep s
    else .fault .noRule

end Sys2Proof.Machine
end

