-- ==== Sys2Proof/Machine/Tool.lean ====
section
/-! DEFINITION. The TOOL family: the meaning of TOOL_RUN at issue (START) and one definition per sequencer state
(spec/41_append_tool.md R114 to R125, R130). -/

namespace Sys2Proof.Machine

/-- START, after the operands are read (R114): the descriptor is latched, the table built, the state is OPEN_READ. -/
def startRun (ops : ToolOperands) (s : State) : State :=
  let s := beginCommand s
  let s := match ops.descriptor with
    | some (target, fill) =>
      { s with tool.runPadReq := some true, tool.runTarget := some target, tool.runFill := some fill }
    | none => { s with tool.runPadReq := some false, regs.padLen := some 0#64 }
  let s := buildTable s
  { s with regs.seqState := .openRead }

/-- TOOL_RUN, its issue step START (R113, R114); an operand that holds no value is UNSET_OPERAND (R71, log 13,
log 21). -/
def execToolRun (s : State) : Result :=
  atIssue s fun s =>
    match toolOperands s with
    | none => .next (refuse .unsetOperand s)
    | some ops => .next (startRun ops s)

/-- OPEN_READ (R116); the open fails where FILE is absent (R50, log 4). -/
def toolOpenRead (s : State) : Result :=
  let forced := if s.host.file = none then some OpenAnswer.fail else none
  onAnswer s forced s.host.openReadAnswers fun a =>
    let s := { s with host.openReadAnswers := s.host.openReadAnswers.tail }
    match a with
    | .fail => .next (failExit .fileOpenErrorRead s)
    | .ok => .next { s with tool.rdOpen := true, regs.seqState := .sizeValidate }

/-- SIZE_VALIDATE (R117): IMG_SIZE is written first; a run whose image exceeds MAX_IMAGE_BYTES stays here (log 14);
the padding check comes before the alignment check (D15). -/
def toolSizeValidate (s : State) : Result :=
  match s.host.file with
  | none => .fault (.readsNoValue "FILE")
  | some file =>
    let n := file.length
    let s := { s with regs.imgSize := some (BitVec.ofNat 64 n) }
    if exceedsMaxImage s.params n then .next s
    else
      match latchedPadding s with
      | .error f => .fault f
      | .ok descriptor =>
        let padRejected := match descriptor with
          | some (target, fill) => !padOk target fill n
          | none => false
        if padRejected then .next (failExit .invalidPaddingConfig s)
        else if n % 4 ≠ 0 then .next (failExit .unalignedImageSize s)
        else .next { s with regs.seqState := .readBuffer }

/-- READ_BUFFER (R119, R55); a read of no bytes cannot fail (log 4). -/
def toolReadBuffer (s : State) : Result :=
  match s.host.file with
  | none => .fault (.readsNoValue "FILE")
  | some file =>
    let n := file.length
    let forced := if n = 0 then some ReadAnswer.all else none
    onAnswer s forced s.host.readAnswers fun a =>
      let s := { s with host.readAnswers := s.host.readAnswers.tail }
      if a.delivered n < n then .next (failExit .readError s)
      else .next { s with tool.img := some (memRead file n), regs.seqState := .computeCrc }

/-- COMPUTE_CRC (R120). -/
def toolComputeCrc (s : State) : Result :=
  match s.tool.img with
  | none => .fault (.readsNoValue "IMG")
  | some img =>
    engineRequest img s fun crc s =>
      .next { s with regs.toolCrc := some crc, tool.img := none, regs.seqState := .zeroCrcCheck }

/-- ZERO_CRC_CHECK, the zero-CRC policy (R121). -/
def toolZeroCrcCheck (s : State) : Result :=
  match s.regs.toolCrc, s.tool.runPadReq with
  | none, _ => .fault (.readsNoValue "TOOL_CRC")
  | _, none => .fault (.readsNoValue "RUN_PAD_REQ")
  | some crc, some padReq =>
    if crc = 0#32 ∧ padReq = false then .next (failExit .alreadyChecksummed s)
    else .next { s with regs.seqState := .openAppend }

/-- OPEN_APPEND (R122). -/
def toolOpenAppend (s : State) : Result :=
  match s.tool.runPadReq with
  | none => .fault (.readsNoValue "RUN_PAD_REQ")
  | some padReq =>
    onAnswer s none s.host.openAppendAnswers fun a =>
      let s := { s with host.openAppendAnswers := s.host.openAppendAnswers.tail }
      match a with
      | .fail => .next (failExit .fileOpenErrorAppend s)
      | .ok => .next { s with tool.apOpen := true, regs.seqState := if padReq then .pad else .writeCrc }

/-- PAD (R123): the pad CRC replaces the data CRC before the pad is written; a pad of no bytes cannot be short
(log 4). N is IMG_SIZE (R31). PAD is entered only with padding requested, so its other case has no rule (log 16). -/
def toolPad (s : State) : Result :=
  match latchedPadding s, s.regs.imgSize, s.host.file with
  | .error f, _, _ => .fault f
  | .ok none, _, _ => .fault .noRule
  | _, none, _ => .fault (.readsNoValue "IMG_SIZE")
  | _, _, none => .fault (.readsNoValue "FILE")
  | .ok (some (target, fill)), some n, some file =>
    let pad := padOf target fill n.toNat
    let forced := if pad = [] then some WriteAnswer.all else none
    onAnswer s forced s.host.padWriteAnswers fun a =>
      let s := { s with
        host.padWriteAnswers := s.host.padWriteAnswers.tail
        regs.padLen := some (BitVec.ofInt 64 (target - 4 - n.toNat))
        tool.padbuf := some pad }
      engineRequest pad s fun crc s =>
        let s := { s with
          regs.toolCrc := some crc, host.file := some (memAppend file pad a), tool.padbuf := none }
        if a.complete pad then .next { s with regs.seqState := .writeCrc }
        else .next (failExit .writeErrorPad s)

/-- WRITE_CRC (R124). -/
def toolWriteCrc (s : State) : Result :=
  match s.regs.toolCrc, s.host.file with
  | none, _ => .fault (.readsNoValue "TOOL_CRC")
  | _, none => .fault (.readsNoValue "FILE")
  | some crc, some file =>
    let bytes := bytes32 s.params.byteOrder crc
    onAnswer s none s.host.crcWriteAnswers fun a =>
      let s := { s with
        host.crcWriteAnswers := s.host.crcWriteAnswers.tail
        host.file := some (memAppend file bytes a) }
      if a.complete bytes then .next { s with regs.seqState := .done }
      else .next (failExit .writeErrorCrc s)

/-- DONE, the successful end (R125). -/
def toolDone (s : State) : Result :=
  .next { s with
    tool.rdOpen := false, tool.apOpen := false
    status.cause := .none, status.exit := .success, status.busy := false, status.done := true }

/-- One step of a run in progress (R130). START is the issue step and IDLE and FAIL take no step, so BUSY = 1 leaves
no rule for them (log 13, log 16). -/
def toolStep (s : State) : Result :=
  match s.regs.seqState with
  | .idle => .fault .noRule
  | .start => .fault .noRule
  | .openRead => toolOpenRead s
  | .sizeValidate => toolSizeValidate s
  | .readBuffer => toolReadBuffer s
  | .computeCrc => toolComputeCrc s
  | .zeroCrcCheck => toolZeroCrcCheck s
  | .openAppend => toolOpenAppend s
  | .pad => toolPad s
  | .writeCrc => toolWriteCrc s
  | .done => toolDone s
  | .fail => .fault .noRule

end Sys2Proof.Machine
end

