-- ==== Sys2Proof/Machine/Block.lean ====
section
/-! DEFINITION. One step of the block between two host transactions (spec/00_scope.md R8, R18). -/

namespace Sys2Proof.Machine

/-- The block's own step. A halted block (spec/60_exceptions.md R157) and one that executes no command (R165, log 22)
stay as they are. WIDX holds a value exactly while an ENG_CRC32 executes (spec/10_state.md R34); otherwise BUSY = 1
means a run. -/
def blockStep (s : State) : Result :=
  if halted s then .next s
  else if s.status.busy then
    match s.engine.widx with
    | some i => engineStep i s
    | none => toolStep s
  else .next s

end Sys2Proof.Machine
end

