-- ==== Sys2Proof/Machine/Dispatch.lean ====
section
/-! DEFINITION. The meaning of every command at its issue: one arm per constructor of Instr. -/

namespace Sys2Proof.Machine

def exec (i : Instr) (s : State) : Host.Outcome State Fault Refusal :=
  match i with
  | .engInit => Sys2Proof.Machine.execEngInit s
  | .engCrc32 => Sys2Proof.Machine.execEngCrc32 s
  | .toolRun => Sys2Proof.Machine.execToolRun s

end Sys2Proof.Machine
end

