-- ==== Sys2Proof/Machine/HostPort.lean ====
section
/-! DEFINITION. The host's accesses to the interface registers and to EBUF (spec/10_state.md R21 to R37,
spec/20_memory.md R46). -/

namespace Sys2Proof.Machine

/-- The value of an interface register, widened with zeros to the host's 64 bits, or none where it holds no value
(R21 to R32, R37 (e), log 9). CMD reads 0 (R22). -/
def regValue (s : State) : Reg → Option Dword
  | .cmd => some 0#64
  | .status => some (s.status.word.setWidth 64)
  | .result => s.regs.result.map (·.setWidth 64)
  | .elen => s.regs.elen
  | .padReq => s.regs.padReq.map fun b => (BitVec.ofBool b).setWidth 64
  | .padTarget => s.regs.padTarget
  | .padFill => s.regs.padFill
  | .toolCrc => s.regs.toolCrc.map (·.setWidth 64)
  | .padLen => s.regs.padLen
  | .imgSize => s.regs.imgSize
  | .seqState => some (s.regs.seqState.code.setWidth 64)

/-- `refuse(ILLEGAL_ACCESS)`, without effect on a block that is halted already (R37, R157, log 10). -/
def refuseAccess (s : State) : State := if halted s then s else refuse .illegalAccess s

/-- What a host read of register number `reg` returns, if it returns a value (R21, R37 (a) and (e)). -/
def readRegister (s : State) (reg : Nat) : Option Dword := (Reg.ofNumber? reg).bind (regValue s)

/-- A host read of register number `reg` (R37): the value goes to the host; a refused read returns none. -/
def hostRead (reg : Nat) (s : State) : State :=
  match readRegister s reg with
  | some v => { s with host.readValue := some v }
  | none => refuseAccess { s with host.readValue := none }

/-- The register write itself, for a register that holds state and a value it can take; none is a refused access
(R37 (a) to (c)). CMD holds no state: a write to it is a command (R22). -/
def writeRegister (reg : Nat) (v : Dword) (s : State) : Option State :=
  match Reg.ofNumber? reg with
  | some .elen => some { s with regs.elen := some v }
  | some .padReq =>
    if v = 0#64 then some { s with regs.padReq := some false }
    else if v = 1#64 then some { s with regs.padReq := some true }
    else none
  | some .padTarget => some { s with regs.padTarget := some v }
  | some .padFill => some { s with regs.padFill := some v }
  | some .cmd | some .status | some .result | some .toolCrc | some .padLen | some .imgSize | some .seqState | none =>
    none

/-- A host write of a register other than CMD (R37): without effect while halted, refused while busy (d). -/
def hostWrite (reg : Nat) (v : Dword) (s : State) : State :=
  if halted s then s
  else if s.status.busy then refuse .illegalAccess s
  else
    match writeRegister reg v s with
    | some t => t
    | none => refuse .illegalAccess s

/-- A host write of one EBUF byte (R46, R37 (d) and (f)). -/
def hostEbufWrite (offset : Nat) (b : Byte) (s : State) : State :=
  if halted s then s
  else if s.status.busy then refuse .illegalAccess s
  else if s.params.ebufBytes ≤ offset then refuse .illegalAccess s
  else { s with ebuf := s.ebuf.write offset b }

end Sys2Proof.Machine
end

