-- ==== Sys2Proof/Machine/Issue.lean ====
section
/-! DEFINITION. The host's moves: the write of CMD that decodes and issues a command (spec/30_encoding.md R73), the
other transactions (R79), and which agent moves next (log 1). -/

namespace Sys2Proof.Machine

/-- A host write of `w` to CMD (R22, R73): a command word that decodes is issued, any other is ILLEGAL_COMMAND. The
conditions halted and busy come first either way. -/
def commandWrite (w : Word) (s : State) : Result :=
  match decode w with
  | .ok i => exec i s
  | .error _ => atIssue s fun s => .next (refuse .illegalCommand s)

/-- One host move (R79, R170). The command word is the low 32 bits of what is written to CMD (log 9). A `wait` comes
here only once BUSY = 0, and is then over (`nextMove`). -/
def hostMove (m : HostMove) (s : State) : Result :=
  match m with
  | .wr reg v => if reg = 0 then commandWrite (v.setWidth 32) s else .next (hostWrite reg v s)
  | .rd reg => .next (hostRead reg s)
  | .ebufWr offset b => .next (hostEbufWrite offset b s)
  | .wait => .next s
  | .idle => blockStep s
  | .reset => .next (resetBlock s)

/-- Whether the next move of the script is still to be made after this step: a `wait` polls until BUSY = 0 (R79,
log 23). -/
def stillWaiting (s : State) : Bool :=
  match s.host.script with
  | .wait :: _ => s.status.busy
  | _ => false

/-- One step of the whole: the host's next move, or, while the host waits or has no move to make, a step of the
block. -/
def nextMove (s : State) : Result :=
  match s.host.script with
  | [] => blockStep s
  | m :: rest => if stillWaiting s then blockStep s else hostMove m { s with host.script := rest }

end Sys2Proof.Machine
end

