-- ==== Sys2Proof/Machine/Step.lean ====
section
/-! DEFINITION. The step of the machine, and how the host's test of an opcode-table row places a command. -/

namespace Sys2Proof.Machine

/-- One step: the host's next move or the block's next step (log 1). -/
def step (s : State) : Host.Outcome State Fault Refusal := nextMove s

/-- `s` with a host write of the command word `w`, of `nbits` bits, to CMD as the host's next move: the block fetches
no instructions, a command comes from the host's script (spec/20_memory.md R65, log 20). -/
def State.withFetchWord (s : State) (nbits w : Nat) : State :=
  { s with host.script := .wr 0 (BitVec.ofNat 64 (w % 2 ^ nbits)) :: s.host.script }

end Sys2Proof.Machine
end

