-- ==== Sys2Proof/Safety.lean ====
section
/-! DEFINITION. The terms claims use: where a unit stands, a host that leaves the block alone, what a run appends, and
the invariant of the machine. -/

namespace Sys2Proof.Machine

/-- The host makes no move while the block is busy: it has none left, or it polls STATUS (spec/30_encoding.md R79). -/
def hostQuiet (s : State) : Prop := s.host.script = [] ∨ ∃ rest, s.host.script = .wait :: rest

/-- The block would take a command: it is neither halted nor busy (R73 (d) and (e)). -/
def ready (s : State) : Prop := halted s = false ∧ s.status.busy = false

/-- The host's next move writes or reads a register or writes EBUF: a command or an access, what R37 and R73 can
refuse. -/
def hostAccesses (s : State) : Prop :=
  (∃ reg v rest, s.host.script = .wr reg v :: rest) ∨ (∃ reg rest, s.host.script = .rd reg :: rest) ∨
    ∃ off b rest, s.host.script = .ebufWr off b :: rest

/-- The host's next move issues command `i` on a block that takes it (R73, log 9). -/
def issues (i : Instr) (s : State) : Prop :=
  ready s ∧ ∃ v rest, s.host.script = .wr 0 v :: rest ∧ decode (v.setWidth 32) = .ok i

/-- A run is in progress, not halted, and its next step is that of sequencer state `q` (spec/41_append_tool.md). -/
def runsAt (q : SeqState) (s : State) : Prop :=
  halted s = false ∧ s.status.busy = true ∧ s.engine.widx = none ∧ s.regs.seqState = q

/-- An ENG_CRC32 of length `l` is in progress, not halted, at word index `i` (spec/40_crc_engine.md R104). -/
def computesAt (l i : Dword) (s : State) : Prop :=
  halted s = false ∧ s.status.busy = true ∧ s.engine.widx = some i ∧ s.regs.elen = some l

/-- A run in progress in `s` has ended in `t`, in DONE or in FAIL (R125, R153). -/
def runEnds (s t : State) : Prop :=
  s.status.busy = true ∧ t.status.busy = false ∧ (t.regs.seqState = .done ∨ t.regs.seqState = .fail)

/-- The Reversal Table is built (R87, R103). -/
def tableBuilt (s : State) : Prop := s.status.tblValid = true ∧ s.engine.rt = some revTable

/-- EBUF[0..len(bytes)) holds `bytes` (R46). -/
def ebufHolds (m : Memory) (bytes : List Byte) : Prop := ∀ i, i < bytes.length → m.read i = bytes[i]?

/-- The step of the sequencer that raises a cause (spec/60_exceptions.md R141 to R148). -/
def raisedIn : RunFailure → SeqState
  | .invalidPaddingConfig => .sizeValidate
  | .unalignedImageSize => .sizeValidate
  | .fileOpenErrorRead => .openRead
  | .fileOpenErrorAppend => .openAppend
  | .readError => .readBuffer
  | .writeErrorPad => .pad
  | .writeErrorCrc => .writeCrc
  | .alreadyChecksummed => .zeroCrcCheck

/-- The "next on success" column of R130's table; a new run leaves IDLE, DONE or FAIL through START. -/
def nextOnSuccess : SeqState → SeqState → Bool
  | .idle, .openRead => true
  | .done, .openRead => true
  | .fail, .openRead => true
  | .openRead, .sizeValidate => true
  | .sizeValidate, .readBuffer => true
  | .readBuffer, .computeCrc => true
  | .computeCrc, .zeroCrcCheck => true
  | .zeroCrcCheck, .openAppend => true
  | .openAppend, .pad => true
  | .openAppend, .writeCrc => true
  | .pad, .writeCrc => true
  | .writeCrc, .done => true
  | _, _ => false

/-- Every file call of a run has an answer waiting (R50). -/
def allAnswered (h : HostSide) : Prop :=
  h.openReadAnswers ≠ [] ∧ h.readAnswers ≠ [] ∧ h.openAppendAnswers ≠ [] ∧ h.padWriteAnswers ≠ [] ∧
    h.crcWriteAnswers ≠ []

/-- Every file call of the next run succeeds (R50). -/
def allSucceed (h : HostSide) : Prop :=
  h.openReadAnswers.head? = some .ok ∧ h.readAnswers.head? = some .all ∧ h.openAppendAnswers.head? = some .ok ∧
    h.padWriteAnswers.head? = some .all ∧ h.crcWriteAnswers.head? = some .all

/-! ### The invariant -/

/-- EBUF is in canonical form and inside its size (R46). -/
def ebufInv (s : State) : Prop := s.ebuf.wf ∧ ∀ c ∈ s.ebuf, c.1 < s.params.ebufBytes

/-- RT holds the Reversal Table exactly when TBL_VALID = 1 (R35, R36). -/
def tableInv (s : State) : Prop := s.engine.rt = if s.status.tblValid then some revTable else none

/-- The STATUS bits and CAUSE agree: FAULT comes with an engine cause and BUSY = 0 (R151), REFUSED with a refusal
cause (R73), and otherwise CAUSE is NONE or a cause of the taxonomy (R41, R76); DONE excludes BUSY (R23); EXIT is never
the CLI's own category (R77). -/
def statusInv (s : State) : Prop :=
  (match s.status.fault, s.status.refused with
    | true, true => False
    | true, false => s.status.busy = false ∧ ∃ c, s.status.cause = .engine c
    | false, true => ∃ c, s.status.cause = .refusal c
    | false, false => s.status.cause = .none ∨ ∃ c, s.status.cause = .run c) ∧
  (s.status.done = true → s.status.busy = false) ∧ s.status.exit ≠ .argParse

/-- EXIT and SEQ_STATE agree while no run is in progress: both tell the last run's outcome (R77, R78, R125, R153). -/
def outcomeInv (s : State) : Prop :=
  match s.regs.seqState with
  | .idle => s.status.exit = .none
  | .done => s.status.exit = .success
  | .fail => ∃ c, s.status.exit = category c
  | _ => False

/-- The TOOL's handles and buffers are released (R39, R40). -/
def released (s : State) : Prop := s.tool.rdOpen = false ∧ s.tool.apOpen = false ∧ s.tool.img = none

/-- An ENG_CRC32 in progress: BUSY, a built table, an accumulator, a legal length and an index within it (R104). -/
def engineInv (i : Dword) (s : State) : Prop :=
  s.status.busy = true ∧ s.status.tblValid = true ∧ s.engine.acc.isSome = true ∧
  ∃ l, s.regs.elen = some l ∧ l.toNat % 4 = 0 ∧ l.toNat ≤ s.params.ebufBytes ∧ i.toNat ≤ l.toNat / 4

/-- What holds from READ_BUFFER on: FILE passed SIZE_VALIDATE as it stood when IMG_SIZE was written (R117, R118). -/
def validated (s : State) (file : List Byte) : Prop :=
  s.regs.imgSize = some (BitVec.ofNat 64 file.length) ∧ file.length % 4 = 0 ∧
  exceedsMaxImage s.params file.length = false ∧
  ∀ target fill, s.tool.runPadReq = some true → s.tool.runTarget = some target → s.tool.runFill = some fill →
    padOk target fill file.length = true

/-- The latched descriptor holds what the run reads of it (R38). -/
def latchedInv (s : State) : Prop :=
  s.tool.runPadReq = some false ∨
    (s.tool.runPadReq = some true ∧ s.tool.runTarget.isSome = true ∧ s.tool.runFill.isSome = true)

/-- A run in progress, by sequencer state (R114 to R125): what the steps before have left. -/
def runInv (s : State) : Prop :=
  s.status.tblValid = true ∧ latchedInv s ∧
  match s.regs.seqState with
  | .openRead => released s
  | .sizeValidate => s.tool.rdOpen = true ∧ s.tool.apOpen = false ∧ s.tool.img = none ∧ s.host.file.isSome = true
  | .readBuffer =>
    s.tool.rdOpen = true ∧ s.tool.apOpen = false ∧ s.tool.img = none ∧
    ∃ file, s.host.file = some file ∧ validated s file
  | .computeCrc =>
    s.tool.rdOpen = true ∧ s.tool.apOpen = false ∧
    ∃ file, s.host.file = some file ∧ s.tool.img = some file ∧ validated s file
  | .zeroCrcCheck =>
    s.tool.rdOpen = true ∧ s.tool.apOpen = false ∧ s.tool.img = none ∧
    ∃ file, s.host.file = some file ∧ validated s file ∧ s.regs.toolCrc = some (crc32 s.params.byteOrder file)
  | .openAppend =>
    s.tool.rdOpen = true ∧ s.tool.apOpen = false ∧ s.tool.img = none ∧
    ∃ file, s.host.file = some file ∧ validated s file ∧ s.regs.toolCrc = some (crc32 s.params.byteOrder file) ∧
      (s.tool.runPadReq = some false → crc32 s.params.byteOrder file ≠ 0#32)
  | .pad =>
    s.tool.rdOpen = true ∧ s.tool.apOpen = true ∧ s.tool.img = none ∧ s.tool.runPadReq = some true ∧
    ∃ file, s.host.file = some file ∧ validated s file
  | .writeCrc =>
    s.tool.rdOpen = true ∧ s.tool.apOpen = true ∧ s.tool.img = none ∧ s.host.file.isSome = true ∧
    s.regs.toolCrc.isSome = true
  | .done => s.tool.rdOpen = true ∧ s.tool.apOpen = true ∧ s.tool.img = none
  | .idle | .start | .fail => False

/-- The invariant of the machine: it holds after reset and every step keeps it. -/
structure Coherent (s : State) : Prop where
  ebuf : ebufInv s
  table : tableInv s
  status : statusInv s
  padbuf : s.tool.padbuf = none
  idle : s.status.busy = false → s.engine.widx = none ∧ released s ∧ outcomeInv s
  engine : ∀ i, s.engine.widx = some i → engineInv i s ∧ released s ∧ outcomeInv s
  run : s.status.busy = true → s.engine.widx = none → runInv s

end Sys2Proof.Machine
end

