-- ==== Sys2Proof/Certificates/Slice0/Obligations.lean ====
section
/-! DEFINITION. The statements for the provers. Each docstring names the rule of spec/ it formalises; a statement
without one rests on the sections OBLIGATIONS.json names. -/

open Sys2Proof Sys2Proof.Machine

/-! ### Encoding -/

/-- Decoding an encoded command gives it back. -/
def Obligations.DecodeInvertsEncode : Prop := ∀ i : Instr, i.wellFormed = true → decode (encode i) = .ok i

/-- R74: a word decodes to a command exactly when it is that command's word, and a block ready for a command refuses
every other word with ILLEGAL_COMMAND. -/
def Obligations.EveryOtherCommandWordIsIllegal : Prop :=
  (∀ (w : Word) (i : Instr), decode w = .ok i ↔ w = encode i) ∧
  ∀ (w : Word) (s : State), (∀ i, w ≠ encode i) → ready s →
    commandWrite w s = .next { s with status.refused := true, status.cause := .refusal .illegalCommand }

/-- The three words of R69 decode to their commands, and the words of T-ENG-C11 to none. -/
def Obligations.OpcodeMapWordsDecode : Prop :=
  decode 0x00000001#32 = .ok .engInit ∧ decode 0x00000002#32 = .ok .engCrc32 ∧
  decode 0x00000003#32 = .ok .toolRun ∧
  decode 0x00000000#32 = .error .unknownOpcode ∧ decode 0x00000004#32 = .error .unknownOpcode ∧
  decode 0x00000102#32 = .error .reservedBits ∧ decode 0xFFFFFFFF#32 = .error .reservedBits

/-! ### The step -/

/-- When the host's next move writes a word that decodes to `i` to CMD, the step is `exec i` on the state with that
move made. That the host's moves stand in a script is the model's choice (log 1), and so is that the command word is
the low 32 bits of the 64 the host writes (log 9). -/
def Obligations.StepIssuesTheDecodedCommand : Prop :=
  ∀ (s : State) (v : Dword) (rest : List HostMove) (i : Instr),
    s.host.script = .wr 0 v :: rest → decode (v.setWidth 32) = .ok i →
    step s = exec i { s with host.script := rest }

/-- Every other move of the host, the reset included, is one step that makes it. The script of moves and the move
`idle` are the model's choice (log 1), as is that a command word is the low 32 bits of what is written to CMD (log 9);
that a `wait` is over once BUSY = 0 is log 23. -/
def Obligations.StepMakesTheHostsMove : Prop :=
  ∀ (s : State) (rest : List HostMove),
    (∀ reg v, reg ≠ 0 → s.host.script = .wr reg v :: rest →
      step s = .next (hostWrite reg v { s with host.script := rest })) ∧
    (∀ reg, s.host.script = .rd reg :: rest → step s = .next (hostRead reg { s with host.script := rest })) ∧
    (∀ off b, s.host.script = .ebufWr off b :: rest →
      step s = .next (hostEbufWrite off b { s with host.script := rest })) ∧
    (s.host.script = .wait :: rest → s.status.busy = false → step s = .next { s with host.script := rest }) ∧
    (s.host.script = .idle :: rest → step s = blockStep { s with host.script := rest }) ∧
    (s.host.script = .reset :: rest → step s = .next (resetBlock { s with host.script := rest })) ∧
    (∀ v e, s.host.script = .wr 0 v :: rest → decode (v.setWidth 32) = .error e →
      step s = commandWrite (v.setWidth 32) { s with host.script := rest })

/-- While the host has no move to make, or polls a busy block, the step is the block's own; a block that is halted or
executes no command stays as it is (log 1, log 22). -/
def Obligations.StepLetsTheBlockWork : Prop :=
  ∀ s : State,
    (s.host.script = [] → step s = blockStep s) ∧
    (∀ rest, s.host.script = .wait :: rest → s.status.busy = true → step s = blockStep s) ∧
    (s.status.busy = false → blockStep s = .next s) ∧ (halted s = true → blockStep s = .next s)

/-! ### Commands at their issue and the host's accesses -/

/-- R73, clause by clause: the conditions under which a command is refused, in the order of its pseudocode. -/
def Obligations.CommandIssueFollowsItsPseudocode : Prop :=
  ∀ (w : Word) (s : State),
    (halted s = true → commandWrite w s = .next s ∧ ∀ i, exec i s = .next s) ∧
    (halted s = false → s.status.busy = true →
      commandWrite w s = .next { s with status.refused := true, status.cause := .refusal .illegalAccess } ∧
      ∀ i, exec i s = .next { s with status.refused := true, status.cause := .refusal .illegalAccess }) ∧
    (ready s → w.extractLsb' 8 24 ≠ 0#24 →
      commandWrite w s = .next { s with status.refused := true, status.cause := .refusal .illegalCommand }) ∧
    (w.extractLsb' 8 24 = 0#24 → w.extractLsb' 0 8 = 0x01#8 → commandWrite w s = exec .engInit s) ∧
    (w.extractLsb' 8 24 = 0#24 → w.extractLsb' 0 8 = 0x02#8 → commandWrite w s = exec .engCrc32 s) ∧
    (w.extractLsb' 8 24 = 0#24 → w.extractLsb' 0 8 = 0x03#8 → commandWrite w s = exec .toolRun s) ∧
    (ready s → w.extractLsb' 8 24 = 0#24 → w.extractLsb' 0 8 ≠ 0x01#8 → w.extractLsb' 0 8 ≠ 0x02#8 →
      w.extractLsb' 0 8 ≠ 0x03#8 →
      commandWrite w s = .next { s with status.refused := true, status.cause := .refusal .illegalCommand }) ∧
    (ready s → s.regs.elen = none →
      exec .engCrc32 s = .next { s with status.refused := true, status.cause := .refusal .unsetOperand }) ∧
    (ready s →
      (s.regs.padReq = none ∨ s.regs.padReq = some true ∧ (s.regs.padTarget = none ∨ s.regs.padFill = none)) →
      exec .toolRun s = .next { s with status.refused := true, status.cause := .refusal .unsetOperand })

/-- R37: what a refused access does, for each of its cases (a) to (f), and that a halted block lets no write through
while its reads still return the register values. That a refused read leaves the host's read data empty is the model's
choice, its way to say that it returns no value (log 19). -/
def Obligations.RefusedAccessesChangeNothingElse : Prop :=
  ∀ s : State,
    (halted s = false →
      (∀ reg v, 11 ≤ reg →
        hostWrite reg v s = { s with status.refused := true, status.cause := .refusal .illegalAccess }) ∧
      (∀ reg, 11 ≤ reg →
        hostRead reg s =
          { s with
            status.refused := true, status.cause := .refusal .illegalAccess, host.readValue := none }) ∧
      (∀ r v, r ∈ [Reg.status, .result, .toolCrc, .padLen, .imgSize, .seqState] →
        hostWrite r.number v s = { s with status.refused := true, status.cause := .refusal .illegalAccess }) ∧
      (∀ v, v ≠ 0#64 → v ≠ 1#64 →
        hostWrite 4 v s = { s with status.refused := true, status.cause := .refusal .illegalAccess }) ∧
      (s.status.busy = true →
        (∀ reg v, hostWrite reg v s = { s with status.refused := true, status.cause := .refusal .illegalAccess }) ∧
        (∀ off b,
          hostEbufWrite off b s = { s with status.refused := true, status.cause := .refusal .illegalAccess }) ∧
        (∀ w, commandWrite w s =
          .next { s with status.refused := true, status.cause := .refusal .illegalAccess })) ∧
      (∀ r : Reg, regValue s r = none →
        hostRead r.number s =
          { s with
            status.refused := true, status.cause := .refusal .illegalAccess, host.readValue := none }) ∧
      (∀ off b, s.params.ebufBytes ≤ off →
        hostEbufWrite off b s = { s with status.refused := true, status.cause := .refusal .illegalAccess })) ∧
    (halted s = true →
      (∀ reg v, hostWrite reg v s = s) ∧ (∀ off b, hostEbufWrite off b s = s) ∧
      (∀ w, commandWrite w s = .next s) ∧
      (∀ (r : Reg) v, regValue s r = some v → hostRead r.number s = { s with host.readValue := some v }))

/-- The writes a ready block accepts store their value (R25 to R28) and change nothing else: that they leave STATUS as
it is is the model's reading of R23 (log 26). -/
def Obligations.AcceptedWritesStoreTheirValue : Prop :=
  ∀ (s : State) (v : Dword), ready s →
    hostWrite 3 v s = { s with regs.elen := some v } ∧
    hostWrite 4 0#64 s = { s with regs.padReq := some false } ∧
    hostWrite 4 1#64 s = { s with regs.padReq := some true } ∧
    hostWrite 5 v s = { s with regs.padTarget := some v } ∧
    hostWrite 6 v s = { s with regs.padFill := some v }

/-- A host read of a register that holds a value returns it, widened with zeros to the host's data width (log 9), and
changes nothing of the block (R21, R22, R24 to R32). -/
def Obligations.ReadsReturnTheRegister : Prop :=
  ∀ s : State,
    hostRead 0 s = { s with host.readValue := some 0#64 } ∧
    hostRead 1 s = { s with host.readValue := some (s.status.word.setWidth 64) } ∧
    (∀ v, s.regs.result = some v → hostRead 2 s = { s with host.readValue := some (v.setWidth 64) }) ∧
    (∀ v, s.regs.elen = some v → hostRead 3 s = { s with host.readValue := some v }) ∧
    (s.regs.padReq = some false → hostRead 4 s = { s with host.readValue := some 0#64 }) ∧
    (s.regs.padReq = some true → hostRead 4 s = { s with host.readValue := some 1#64 }) ∧
    (∀ v, s.regs.padTarget = some v → hostRead 5 s = { s with host.readValue := some v }) ∧
    (∀ v, s.regs.padFill = some v → hostRead 6 s = { s with host.readValue := some v }) ∧
    (∀ v, s.regs.toolCrc = some v → hostRead 7 s = { s with host.readValue := some (v.setWidth 64) }) ∧
    (∀ v, s.regs.padLen = some v → hostRead 8 s = { s with host.readValue := some v }) ∧
    (∀ v, s.regs.imgSize = some v → hostRead 9 s = { s with host.readValue := some v }) ∧
    hostRead 10 s = { s with host.readValue := some (s.regs.seqState.code.setWidth 64) }

/-- A host write of one EBUF byte to a ready block, inside EBUF: that offset reads the byte, every other offset reads
as before, the canonical form is kept, and nothing but EBUF changes (R46). The form is the model's (log 8), and that the
write leaves STATUS as it is is its reading of R23 (log 26). -/
def Obligations.EbufWriteChangesOneByte : Prop :=
  ∀ (s : State) (off : Nat) (b : Byte), ready s → off < s.params.ebufBytes → s.ebuf.wf →
    ∃ m : Memory, hostEbufWrite off b s = { s with ebuf := m } ∧ m.wf ∧ m.read off = some b ∧
      ∀ i, i ≠ off → m.read i = s.ebuf.read i

/-- A well-formed move of the host other than a write of CMD halts a ready block only where it reads a register that
holds no value: otherwise FAULT and REFUSED stay 0. Writes of CMD are left out, since a command can be refused for its
operands or fault (CommandIssueFollowsItsPseudocode, EngCrc32FollowsItsPseudocode). -/
def Obligations.WellFormedMovesAreNotRefused : Prop :=
  ∀ (s : State) (m : HostMove), ready s → m.wellFormed s.params = true →
    (∀ reg, m = .rd reg → (readRegister s reg).isSome = true) → (∀ v, m ≠ .wr 0 v) →
    ∃ t, hostMove m s = .next t ∧ halted t = false

/-- The layout of STATUS (R23). -/
def Obligations.StatusWordHasTheFieldsOfR23 : Prop :=
  ∀ st : Status,
    st.word.getLsbD 0 = st.busy ∧ st.word.getLsbD 1 = st.done ∧ st.word.getLsbD 2 = st.fault ∧
    st.word.getLsbD 3 = st.refused ∧ st.word.getLsbD 4 = st.tblValid ∧ st.word.extractLsb' 5 3 = 0#3 ∧
    st.word.extractLsb' 8 8 = st.cause.code ∧ st.word.extractLsb' 16 3 = st.exit.code ∧
    st.word.extractLsb' 19 13 = 0#13

/-- The codes of CAUSE (R76), EXIT (R77) and SEQ_STATE (R78), each as its table gives it, and that no code stands for
two things. -/
def Obligations.CodesNameOneThing : Prop :=
  (∀ c : Cause, c.code =
    match c with
    | .none => 0x00#8
    | .run .invalidPaddingConfig => 0x01#8
    | .run .unalignedImageSize => 0x02#8
    | .run .fileOpenErrorRead => 0x03#8
    | .run .fileOpenErrorAppend => 0x04#8
    | .run .readError => 0x05#8
    | .run .writeErrorPad => 0x06#8
    | .run .writeErrorCrc => 0x07#8
    | .run .alreadyChecksummed => 0x08#8
    | .engine .tableNotBuilt => 0x10#8
    | .engine .lenUnaligned => 0x11#8
    | .engine .bounds => 0x12#8
    | .engine .undefinedInput => 0x13#8
    | .refusal .illegalCommand => 0x20#8
    | .refusal .illegalAccess => 0x21#8
    | .refusal .unsetOperand => 0x22#8) ∧
  (∀ x : ExitCategory, x.code =
    match x with
    | .none => 0#3
    | .success => 1#3
    | .argParse => 2#3
    | .fileOpen => 3#3
    | .validation => 4#3
    | .alreadyChecksummed => 5#3
    | .write => 6#3) ∧
  (∀ q : SeqState, q.code =
    match q with
    | .idle => 0#8
    | .start => 1#8
    | .openRead => 2#8
    | .sizeValidate => 3#8
    | .readBuffer => 4#8
    | .computeCrc => 5#8
    | .zeroCrcCheck => 6#8
    | .openAppend => 7#8
    | .pad => 8#8
    | .writeCrc => 9#8
    | .done => 10#8
    | .fail => 11#8) ∧
  (∀ c d : Cause, c.code = d.code → c = d) ∧ (∀ a b : SeqState, a.code = b.code → a = b) ∧
  ∀ x y : ExitCategory, x.code = y.code → x = y

/-- R170: what a reset leaves in every element of the block; FILE stays as it is (R172). -/
def Obligations.ResetSetsEveryElement : Prop :=
  ∀ (s : State) (rest : List HostMove), s.host.script = .reset :: rest →
    ∃ t, step s = .next t ∧
      t.status =
        { busy := false, done := false, fault := false, refused := false, tblValid := false, cause := .none,
          exit := .none } ∧
      t.status.word = 0x00000000#32 ∧
      t.regs =
        { result := none, elen := none, padReq := none, padTarget := none, padFill := none, toolCrc := none,
          padLen := none, imgSize := none, seqState := .idle } ∧
      t.engine = { acc := none, widx := none, rt := none } ∧
      t.tool =
        { runPadReq := none, runTarget := none, runFill := none, rdOpen := false, apOpen := false, img := none,
          padbuf := none } ∧
      (∀ i, t.ebuf.read i = none) ∧ t.host.file = s.host.file

/-! ### The ENGINE -/

/-- R103: ENG_INIT, on every block ready for a command. -/
def Obligations.EngInitBuildsTheTable : Prop :=
  ∀ s : State, ready s →
    (∃ t : ByteTable, exec .engInit s = .next
        { s with
          engine.rt := some t, status.tblValid := true, status.cause := .none, status.busy := false
          status.done := true } ∧
      ∀ i, i < 256 → t.entries[i]? = some (rev8 (BitVec.ofNat 8 i))) ∧
    (tableBuilt s → ∃ t, exec .engInit s = .next t ∧ t.engine = s.engine ∧ t.status.tblValid = s.status.tblValid)

/-- R87: ENG_INIT writes RT, and its entry `b` is `b` with its bits in reverse order. -/
def Obligations.ReversalTableReversesBytes : Prop :=
  (∀ s : State, ready s → ∃ t, exec .engInit s = .next t ∧ t.engine.rt = some revTable) ∧
  ∀ (b : Byte) (i : Nat), i < 8 → (rtRead revTable b).getLsbD i = b.getLsbD (7 - i)

/-- The four table reads (R88), and that with RT built they reverse a word (R14, R87), R88's second sentence, marked
[derived] there. -/
def Obligations.RevwReversesWords : Prop :=
  ∀ w : Word,
    (∀ t : ByteTable, revw t w =
      (rtRead t (w.extractLsb' 0 8)).setWidth 32 <<< 24 ||| (rtRead t (w.extractLsb' 8 8)).setWidth 32 <<< 16
        ||| (rtRead t (w.extractLsb' 16 8)).setWidth 32 <<< 8 ||| (rtRead t (w.extractLsb' 24 8)).setWidth 32) ∧
    revw revTable w = rev32 w ∧ ∀ i, i < 32 → (rev32 w).getLsbD i = w.getLsbD (31 - i)

/-- A round is eight bit steps with the reversed polynomial 0xEDB88320 (R9, R10, R89, R91), and the table's check
values of R90. The spec marks the sentence that a round is eight steps, and the values, [derived]. -/
def Obligations.RoundIsEightBitSteps : Prop :=
  (∀ a : Word, crcRound a = (a >>> 8) ^^^ ptab (a.extractLsb' 0 8) ∧ crcRound a = iterate steplsb 8 a ∧
    steplsb a = (a >>> 1) ^^^ (if a.getLsbD 0 then 0xEDB88320#32 else 0#32)) ∧
  0xEDB88320#32 = rev32 0x04C11DB7#32 ∧
  ptab 0x00#8 = 0x00000000#32 ∧ ptab 0x01#8 = 0x77073096#32 ∧ ptab 0x80#8 = 0xEDB88320#32 ∧
  ptab 0xFF#8 = 0x2D02EF8D#32

/-- One word step in the reflected domain mirrors one word update of the peripheral (R94, R98, sentences the spec marks
[derived]), whose bit step shifts left and applies the polynomial 0x04C11DB7 (R9, R95, R96). -/
def Obligations.WordstepMirrorsThePeripheral : Prop :=
  ∀ s w : Word, wordstep revTable (rev32 s) w = rev32 (upd s w) ∧ upd s w = iterate stepmsb 32 (s ^^^ w) ∧
    stepmsb s = (s <<< 1) ^^^ (if s.getLsbD 31 then 0x04C11DB7#32 else 0#32)

/-- The datapath computes the normative function, in either byte order; and that function is the CRC-32/MPEG-2, most
significant bit first and byte by byte, of the words' bytes taken most significant first (R98, both sentences marked
[derived] there). -/
def Obligations.DatapathComputesCrc32 : Prop :=
  ∀ (o : ByteOrder) (s : List Byte), s.length % 4 = 0 →
    revw revTable (accAfter revTable o s) = crc32 o s ∧
    crc32 o s = ((wordsOf o s).flatMap (bytes32 .be)).foldl
      (fun (r : Word) (b : Byte) => iterate stepmsb 8 (r ^^^ (b.setWidth 32 <<< 24))) 0xFFFFFFFF#32

/-- The word four bytes form (R51) and the four bytes of a word (R52), in either byte order. Four appended bytes, read
back as one word, are the appended value, and a word is formed from its own four bytes only (R53, both sentences marked
[derived] there). -/
def Obligations.AppendedBytesReadBack : Prop :=
  (∀ b0 b1 b2 b3 : Byte,
    assembleWord .le b0 b1 b2 b3 = b3 ++ b2 ++ b1 ++ b0 ∧ assembleWord .be b0 b1 b2 b3 = b0 ++ b1 ++ b2 ++ b3 ∧
    wordsOf .le [b0, b1, b2, b3] = [b3 ++ b2 ++ b1 ++ b0] ∧
    wordsOf .be [b0, b1, b2, b3] = [b0 ++ b1 ++ b2 ++ b3]) ∧
  (∀ v : Word,
    bytes32 .le v = [v.extractLsb' 0 8, v.extractLsb' 8 8, v.extractLsb' 16 8, v.extractLsb' 24 8] ∧
    bytes32 .be v = [v.extractLsb' 24 8, v.extractLsb' 16 8, v.extractLsb' 8 8, v.extractLsb' 0 8]) ∧
  ∀ (o : ByteOrder) (v : Word) (s t : List Byte),
    wordsOf o [] = [] ∧ wordsOf o (bytes32 o v) = [v] ∧
    (s.length % 4 = 0 → wordsOf o (s ++ t) = wordsOf o s ++ wordsOf o t)

/-- The checksum of a sequence with its own checksum appended is 0, in either byte order (R99, marked [derived]
there). -/
def Obligations.ResidueIsZero : Prop :=
  ∀ (o : ByteOrder) (s : List Byte), s.length % 4 = 0 → crc32 o (s ++ bytes32 o (crc32 o s)) = 0#32

/-- The checksums of no bytes, of the all-ones word and of the word 0, the last one in the steps R92 and R93 show
(R100, R101, R92, R93, T-ENG-1; the spec marks these values [derived]). -/
def Obligations.ShortChecksums : Prop :=
  ∀ o : ByteOrder,
    crc32 o [] = 0xFFFFFFFF#32 ∧ revw revTable 0xFFFFFFFF#32 = 0xFFFFFFFF#32 ∧
    (∀ s : List Byte, s.length % 4 = 0 → crc32 o (s ++ bytes32 o (crc32 o s)) = 0#32) ∧
    crc32 o [0xFF#8, 0xFF#8, 0xFF#8, 0xFF#8] = 0#32 ∧
    wordstep revTable 0xFFFFFFFF#32 0x00000000#32 = 0xDEBB20E3#32 ∧ revw revTable 0xDEBB20E3#32 = 0xC704DD7B#32 ∧
    crc32 o [0x00#8, 0x00#8, 0x00#8, 0x00#8] = 0xC704DD7B#32

/-- R104, clause by clause: ENG_CRC32 at issue, its word step and its final step. The length of the steps after the
issue is ELEN as it stands (log 12), and that WIDX does not wrap is R34's sentence, marked [derived] there. -/
def Obligations.EngCrc32FollowsItsPseudocode : Prop :=
  ∀ (s : State) (l : Dword), s.regs.elen = some l →
    (ready s → s.status.tblValid = false →
      exec .engCrc32 s =
        .next (raiseEngineFault .tableNotBuilt { s with status.busy := true, status.done := false })) ∧
    (ready s → tableBuilt s → l.toNat % 4 ≠ 0 →
      exec .engCrc32 s =
        .next (raiseEngineFault .lenUnaligned { s with status.busy := true, status.done := false })) ∧
    (ready s → tableBuilt s → l.toNat % 4 = 0 → s.params.ebufBytes < l.toNat →
      exec .engCrc32 s = .next (raiseEngineFault .bounds { s with status.busy := true, status.done := false })) ∧
    (ready s → tableBuilt s → l.toNat % 4 = 0 → l.toNat ≤ s.params.ebufBytes →
      exec .engCrc32 s = .next
        { s with
          status.busy := true, status.done := false, engine.acc := some 0xFFFFFFFF#32
          engine.widx := some 0#64 }) ∧
    (∀ i : Dword, computesAt l i s → tableBuilt s → i.toNat < l.toNat / 4 →
      (∃ j, j < 4 ∧ s.ebuf.read (4 * i.toNat + j) = none) → blockStep s = .next (raiseEngineFault .undefinedInput s)) ∧
    (∀ (i : Dword) (a : Word) (b0 b1 b2 b3 : Byte), computesAt l i s → tableBuilt s → i.toNat < l.toNat / 4 →
      s.engine.acc = some a → s.ebuf.read (4 * i.toNat) = some b0 → s.ebuf.read (4 * i.toNat + 1) = some b1 →
      s.ebuf.read (4 * i.toNat + 2) = some b2 → s.ebuf.read (4 * i.toNat + 3) = some b3 →
      blockStep s = .next
        { s with
          engine.acc := some (wordstep revTable a (assembleWord s.params.byteOrder b0 b1 b2 b3))
          engine.widx := some (i + 1#64) } ∧
      (i + 1#64).toNat = i.toNat + 1) ∧
    (∀ (i : Dword) (a : Word), computesAt l i s → tableBuilt s → i.toNat = l.toNat / 4 → s.engine.acc = some a →
      blockStep s = .next
        { s with
          regs.result := some (revw revTable a), engine.acc := none, engine.widx := none
          status.cause := .none, status.busy := false, status.done := true })

/-- A whole ENG_CRC32: issued on a ready block with the table built, a legal ELEN and EBUF[0..ELEN) written, it ends
after L/4 + 1 further steps with RESULT = crc32(EBUF[0..L)), and leaves everything else but STATUS, ACC and WIDX as it
was (R104, R98). -/
def Obligations.EngCrc32ComputesTheChecksum : Prop :=
  ∀ (s : State) (l : Dword) (bytes : List Byte), ready s → tableBuilt s → hostQuiet s →
    s.regs.elen = some l → bytes.length = l.toNat → l.toNat % 4 = 0 → l.toNat ≤ s.params.ebufBytes →
    ebufHolds s.ebuf bytes →
    ∃ t, exec .engCrc32 s = .next t ∧
      core.run (l.toNat / 4 + 1) t = .next
        { s with
          regs.result := some (crc32 s.params.byteOrder bytes), engine.acc := none, engine.widx := none
          status.cause := .none, status.busy := false, status.done := true }

/-- R102: an internal request on a built table hands over crc32 of its bytes and writes ACC and WIDX only; on a table
that is not built it raises ENG_TABLE_NOT_BUILT. ACC keeping the accumulator is the model's reading (log 11). -/
def Obligations.InternalRequestGivesCrc32 : Prop :=
  ∀ (bytes : List Byte) (s : State) (k : Word → State → Result),
    (tableBuilt s → bytes.length % 4 = 0 →
      engineRequest bytes s k = k (crc32 s.params.byteOrder bytes)
        { s with
          engine.acc := some (accAfter revTable s.params.byteOrder bytes), engine.widx := none }) ∧
    (s.status.tblValid = false → engineRequest bytes s k = .next (raiseEngineFault .tableNotBuilt s))

/-! ### The TOOL -/

/-- R114: START, with and without padding. That RUN_TARGET and RUN_FILL keep their values without padding is the
model's reading: R38 lets them hold no value then (log 25). -/
def Obligations.ToolRunStarts : Prop :=
  ∀ s : State, ready s →
    (s.regs.padReq = some false →
      exec .toolRun s = .next
        { s with
          status.busy := true, status.done := false, status.tblValid := true
          tool.runPadReq := some false, regs.padLen := some 0#64
          engine.rt := some revTable, regs.seqState := .openRead }) ∧
    (∀ target fill : Dword, s.regs.padReq = some true → s.regs.padTarget = some target →
      s.regs.padFill = some fill →
      exec .toolRun s = .next
        { s with
          status.busy := true, status.done := false, status.tblValid := true
          tool.runPadReq := some true, tool.runTarget := some target.toInt, tool.runFill := some fill.toInt
          engine.rt := some revTable, regs.seqState := .openRead })

/-- R116: OPEN_READ. The answers are the model's form of the draw (log 2), and that an absent FILE needs none is the
model's choice (log 4). -/
def Obligations.OpenReadOpensOrFails : Prop :=
  ∀ s : State, runsAt .openRead s →
    (s.host.file = none →
      ∃ rest, blockStep s = .next (failExit .fileOpenErrorRead { s with host.openReadAnswers := rest })) ∧
    (∀ rest, s.host.openReadAnswers = .fail :: rest →
      blockStep s = .next (failExit .fileOpenErrorRead { s with host.openReadAnswers := rest })) ∧
    (∀ file rest, s.host.file = some file → s.host.openReadAnswers = .ok :: rest →
      blockStep s = .next
        { s with host.openReadAnswers := rest, tool.rdOpen := true, regs.seqState := .sizeValidate })

/-- R117: SIZE_VALIDATE. IMG_SIZE is written first; then the run is stuck above MAX_IMAGE_BYTES, or fails the padding
check, or fails the alignment check, in that order, or goes on. That a stuck run repeats the step is the model's reading
(log 14), and the low 64 bits of the size of an image of 2^64 bytes or more are its choice (log 15). -/
def Obligations.SizeValidateChecksInOrder : Prop :=
  ∀ (s : State) (file : List Byte), runsAt .sizeValidate s → s.host.file = some file →
    (∀ m, s.params.maxImageBytes = some m → m < file.length →
      blockStep s = .next { s with regs.imgSize := some (BitVec.ofNat 64 file.length) }) ∧
    ((∀ m, s.params.maxImageBytes = some m → file.length ≤ m) →
      (∀ target fill, s.tool.runPadReq = some true → s.tool.runTarget = some target → s.tool.runFill = some fill →
        (padOk target fill file.length = false →
          blockStep s = .next (failExit .invalidPaddingConfig
            { s with regs.imgSize := some (BitVec.ofNat 64 file.length) })) ∧
        (padOk target fill file.length = true → file.length % 4 ≠ 0 →
          blockStep s = .next (failExit .unalignedImageSize
            { s with regs.imgSize := some (BitVec.ofNat 64 file.length) })) ∧
        (padOk target fill file.length = true → file.length % 4 = 0 →
          blockStep s = .next
            { s with regs.imgSize := some (BitVec.ofNat 64 file.length), regs.seqState := .readBuffer })) ∧
      (s.tool.runPadReq = some false →
        (file.length % 4 ≠ 0 →
          blockStep s = .next (failExit .unalignedImageSize
            { s with regs.imgSize := some (BitVec.ofNat 64 file.length) })) ∧
        (file.length % 4 = 0 →
          blockStep s = .next
            { s with regs.imgSize := some (BitVec.ofNat 64 file.length), regs.seqState := .readBuffer })))

/-- R118: pad_ok, and what it guarantees of the pad length, the latter a sentence the spec marks [derived]. -/
def Obligations.PadValidationGuaranteesThePad : Prop :=
  ∀ (target fill : Int) (n : Nat),
    (padOk target fill n = true ↔
      0 ≤ target ∧ target % 4 = 0 ∧ (n : Int) + 4 ≤ target ∧ 0 ≤ fill ∧ fill ≤ 255) ∧
    (padOk target fill n = true → n % 4 = 0 →
      0 ≤ target - 4 - n ∧ (target - 4 - n) % 4 = 0 ∧ (padOf target fill n).length % 4 = 0 ∧
      ((n + (padOf target fill n).length + 4 : Nat) : Int) = target)

/-- R119: READ_BUFFER. The answers are the model's form of the draw (log 2). That an image of no bytes cannot fail the
read is R119's sentence, marked [derived] there, and that it needs no answer is the model's choice (log 4). -/
def Obligations.ReadBufferReadsTheImageOrFails : Prop :=
  ∀ (s : State) (file : List Byte), runsAt .readBuffer s → s.host.file = some file →
    (∀ k rest, s.host.readAnswers = .short k :: rest → k < file.length →
      blockStep s = .next (failExit .readError { s with host.readAnswers := rest })) ∧
    (∀ rest, s.host.readAnswers = .all :: rest →
      blockStep s = .next
        { s with host.readAnswers := rest, tool.img := some file, regs.seqState := .computeCrc }) ∧
    (file = [] →
      ∃ rest, blockStep s = .next
        { s with host.readAnswers := rest, tool.img := some [], regs.seqState := .computeCrc })

/-- R120: COMPUTE_CRC; where the invariant holds, the request it makes cannot fault, which is R120's sentence, marked
[derived] there. ACC is left open after the request: what it holds is the model's reading (log 11). -/
def Obligations.ComputeCrcSetsToolCrc : Prop :=
  ∀ s : State, runsAt .computeCrc s →
    (∀ img : List Byte, tableBuilt s → s.tool.img = some img → img.length % 4 = 0 →
      ∃ acc, blockStep s = .next
        { s with
          regs.toolCrc := some (crc32 s.params.byteOrder img), tool.img := none, regs.seqState := .zeroCrcCheck
          engine.acc := acc }) ∧
    (Coherent s → tableBuilt s ∧ ∃ img, s.tool.img = some img ∧ s.host.file = some img ∧ img.length % 4 = 0)

/-- R121: the zero-CRC policy. -/
def Obligations.ZeroCrcCheckFollowsThePolicy : Prop :=
  ∀ (s : State) (crc : Word) (padReq : Bool), runsAt .zeroCrcCheck s → s.regs.toolCrc = some crc →
    s.tool.runPadReq = some padReq →
    (crc = 0#32 → padReq = false → blockStep s = .next (failExit .alreadyChecksummed s)) ∧
    (¬(crc = 0#32 ∧ padReq = false) → blockStep s = .next { s with regs.seqState := .openAppend })

/-- R122: OPEN_APPEND. The answers are the model's form of the draw (log 2). -/
def Obligations.OpenAppendOpensOrFails : Prop :=
  ∀ (s : State) (rest : List OpenAnswer), runsAt .openAppend s →
    (∀ padReq, s.tool.runPadReq = some padReq → s.host.openAppendAnswers = .fail :: rest →
      blockStep s = .next (failExit .fileOpenErrorAppend { s with host.openAppendAnswers := rest })) ∧
    (s.tool.runPadReq = some true → s.host.openAppendAnswers = .ok :: rest →
      blockStep s = .next
        { s with host.openAppendAnswers := rest, tool.apOpen := true, regs.seqState := .pad }) ∧
    (s.tool.runPadReq = some false → s.host.openAppendAnswers = .ok :: rest →
      blockStep s = .next
        { s with host.openAppendAnswers := rest, tool.apOpen := true, regs.seqState := .writeCrc })

/-- R123: PAD. The pad CRC replaces the data CRC whether or not the write completes; a pad of no bytes cannot be short.
That PAD_LEN and TOOL_CRC appear with the answer of the append is log 2, that a pad of no bytes needs no answer is the
model's choice (log 4), and ACC is left open after the request (log 11). -/
def Obligations.PadReplacesTheCrcAndAppends : Prop :=
  ∀ (s : State) (target fill : Int) (n : Dword) (file : List Byte), runsAt .pad s → tableBuilt s →
    s.tool.runPadReq = some true → s.tool.runTarget = some target → s.tool.runFill = some fill →
    s.regs.imgSize = some n → s.host.file = some file → padOk target fill n.toNat = true → n.toNat % 4 = 0 →
    let pad := List.replicate (target - 4 - n.toNat).toNat (BitVec.ofInt 8 fill)
    let padCrc := crc32 s.params.byteOrder pad
    (∀ rest, s.host.padWriteAnswers = .all :: rest →
      ∃ acc, blockStep s = .next
        { s with
          host.padWriteAnswers := rest, host.file := some (file ++ pad)
          regs.padLen := some (BitVec.ofNat 64 pad.length), regs.toolCrc := some padCrc
          engine.acc := acc, tool.padbuf := none, regs.seqState := .writeCrc }) ∧
    (pad = [] →
      ∃ rest acc, blockStep s = .next
        { s with
          host.padWriteAnswers := rest, regs.padLen := some 0#64, regs.toolCrc := some 0xFFFFFFFF#32
          engine.acc := acc, tool.padbuf := none, regs.seqState := .writeCrc }) ∧
    (∀ g rest, s.host.padWriteAnswers = .short g :: rest → g.length < pad.length →
      ∃ acc, blockStep s = .next (failExit .writeErrorPad
        { s with
          host.padWriteAnswers := rest, host.file := some (file ++ g)
          regs.padLen := some (BitVec.ofNat 64 pad.length), regs.toolCrc := some padCrc
          engine.acc := acc }))

/-- R124: WRITE_CRC. The answers are the model's form of the draw (log 2). -/
def Obligations.WriteCrcAppendsFourBytes : Prop :=
  ∀ (s : State) (crc : Word) (file : List Byte), runsAt .writeCrc s → s.regs.toolCrc = some crc →
    s.host.file = some file →
    (∀ rest, s.host.crcWriteAnswers = .all :: rest →
      blockStep s = .next
        { s with
          host.crcWriteAnswers := rest, host.file := some (file ++ bytes32 s.params.byteOrder crc)
          regs.seqState := .done }) ∧
    (∀ g rest, s.host.crcWriteAnswers = .short g :: rest → g.length < 4 →
      blockStep s = .next (failExit .writeErrorCrc
        { s with host.crcWriteAnswers := rest, host.file := some (file ++ g) }))

/-- R125: DONE. The block is then ready for a new command, and a step it takes while it waits leaves it as it is, which
is the model's choice (log 22). -/
def Obligations.DoneEndsTheRun : Prop :=
  ∀ s : State, runsAt .done s →
    ∃ t, blockStep s = .next t ∧ ready t ∧ blockStep t = .next t ∧ t.regs.seqState = .done ∧
      t =
        { s with
          tool.rdOpen := false, tool.apOpen := false, status.cause := .none, status.exit := .success
          status.busy := false, status.done := true }

/-- R153 with the categories of R77: the failure exit. -/
def Obligations.FailureExitRecordsTheCause : Prop :=
  ∀ (c : RunFailure) (s : State),
    failExit c s =
      { s with
        tool.img := none, tool.padbuf := none, tool.rdOpen := false, tool.apOpen := false
        status.cause := .run c, status.exit := category c, regs.seqState := .fail
        status.busy := false, status.done := true } ∧
    (category c).code =
      match c with
      | .fileOpenErrorRead | .fileOpenErrorAppend => 3#3
      | .invalidPaddingConfig | .unalignedImageSize | .readError => 4#3
      | .alreadyChecksummed => 5#3
      | .writeErrorPad | .writeErrorCrc => 6#3

/-- What an engine fault records, and what it leaves (R151). -/
def Obligations.EngineFaultRecordsTheCause : Prop :=
  ∀ (c : EngineCause) (s : State),
    raiseEngineFault c s =
      { s with
        status.fault := true, status.cause := .engine c, status.busy := false
        engine.acc := none, engine.widx := none } ∧
    c.code =
      match c with
      | .tableNotBuilt => 0x10#8
      | .lenUnaligned => 0x11#8
      | .bounds => 0x12#8
      | .undefinedInput => 0x13#8

/-- An append is complete, or it leaves fewer bytes, those of the answer, whatever they are (R56). That an answer with
as many bytes as asked counts as complete is the model's choice (log 3), and that an append of nothing is complete is
R56's sentence, marked [derived] there. -/
def Obligations.AppendsAreCompleteOrShort : Prop :=
  ∀ (file bytes : List Byte) (a : WriteAnswer),
    (a.complete bytes = true → memAppend file bytes a = file ++ bytes) ∧
    (a.complete bytes = false →
      ∃ g, a = .short g ∧ g.length < bytes.length ∧ memAppend file bytes a = file ++ g) ∧
    (bytes = [] → a.complete bytes = true) ∧
    (∀ g, g.length < bytes.length →
      (WriteAnswer.short g).complete bytes = false ∧ memAppend file bytes (.short g) = file ++ g)

/-! ### Rules about every step -/

/-- R157: a halted block stays as it is under every move of the host but a reset, and still answers its reads. That a
read without a value records no second refusal is the model's reading (log 10), and the host's read data is its own
field (log 19). -/
def Obligations.HaltedBlockIsFrozen : Prop :=
  ∀ s : State, halted s = true → (∀ rest, s.host.script ≠ .reset :: rest) →
    ∃ t, step s = .next t ∧ t.params = s.params ∧ t.status = s.status ∧ t.regs = s.regs ∧ t.engine = s.engine ∧
      t.tool = s.tool ∧ t.ebuf = s.ebuf ∧ t.host.file = s.host.file ∧
      ∀ (r : Reg) v rest, s.host.script = .rd r.number :: rest → regValue s r = some v → t.host.readValue = some v

/-- FAULT and REFUSED are sticky, FAULT comes with an engine fault, REFUSED only with a refusal of the command or access
the host makes in that step, and a failure exit is recorded in CAUSE and EXIT with DONE = 1 and sets neither (R41). That
FAULT comes only from an ENG_CRC32, at its issue or in progress, and that no step of a run sets it, is R113's line on
exceptions with the last sentence of R151, which the spec marks [derived]. -/
def Obligations.FaultAndRefusedAreSticky : Prop :=
  ∀ s t : State, step s = .next t → (∀ rest, s.host.script ≠ .reset :: rest) →
    (s.status.fault = true → t.status.fault = true) ∧ (s.status.refused = true → t.status.refused = true) ∧
    (s.status.fault = false → t.status.fault = true → ∃ c, t.status.cause = .engine c ∧ t.status.busy = false) ∧
    (Coherent s → s.status.fault = false → t.status.fault = true →
      issues .engCrc32 s ∨ ∃ l i, computesAt l i s) ∧
    (s.status.refused = false → t.status.refused = true →
      (∃ c, t.status.cause = .refusal c) ∧ hostAccesses s) ∧
    (Coherent s → s.engine.widx = none → ¬hostAccesses s →
      t.status.fault = s.status.fault ∧ t.status.refused = s.status.refused) ∧
    (∀ u, Coherent s → s.engine.widx = none → blockStep s = .next u →
      u.status.fault = s.status.fault ∧ u.status.refused = s.status.refused) ∧
    ∀ c, (failExit c s).status =
      { s.status with cause := .run c, exit := category c, busy := false, done := true }

/-- R130: every change of SEQ_STATE is an edge of the transition table, and a failure exit is taken from the state that
raises its cause. The edges from IDLE, DONE and FAIL to OPEN_READ are not in the table: they are the model's reading
that START is the issue step and is never seen between two steps (log 13). Which of PAD and WRITE_CRC follows
OPEN_APPEND is said by OpenAppendOpensOrFails. -/
def Obligations.SequencerFollowsItsTable : Prop :=
  ∀ s t : State, Coherent s → step s = .next t → (∀ rest, s.host.script ≠ .reset :: rest) →
    t.regs.seqState = s.regs.seqState ∨ nextOnSuccess s.regs.seqState t.regs.seqState = true ∨
      (t.regs.seqState = .fail ∧ ∃ c, t.status.cause = .run c ∧ s.regs.seqState = raisedIn c)

/-- The block never rewrites a byte of FILE and never truncates it; its only mutation is appending (R49). That no move
of the host changes FILE either is the model's reading (log 24). -/
def Obligations.FileOnlyGrows : Prop :=
  ∀ s t : State, step s = .next t →
    (s.host.file = none → t.host.file = none) ∧
    ∀ file, s.host.file = some file → ∃ g, t.host.file = some (file ++ g)

/-- FILE changes only in the PAD and WRITE_CRC steps of a run, so nothing is written before OPEN_APPEND succeeds (R61,
R123, R124). That no move of the host between two runs changes FILE is the model's reading (log 24). -/
def Obligations.OnlyPadAndWriteCrcWrite : Prop :=
  ∀ s t : State, Coherent s → step s = .next t → t.host.file ≠ s.host.file →
    (runsAt .pad s ∨ runsAt .writeCrc s) ∧ s.tool.apOpen = true

/-- Each register has its own writers: RESULT the final step of ENG_CRC32 (R24), the operand registers and EBUF the
host's writes to them (R25 to R28, R46), RT and TBL_VALID the commands ENG_INIT and TOOL_RUN (R35, R36), TOOL_CRC,
PAD_LEN and IMG_SIZE a run or its issue (R29 to R31), the latched descriptor the issue of TOOL_RUN, so that it stays as
it is through a run (R38), and the handle flags OPEN_READ, OPEN_APPEND and the end of a run, which clears both (R39). -/
def Obligations.RegistersHaveTheirOwnWriters : Prop :=
  ∀ s t : State, step s = .next t → (∀ rest, s.host.script ≠ .reset :: rest) →
    (t.regs.result ≠ s.regs.result → ∃ l i, computesAt l i s ∧ i.toNat = l.toNat / 4) ∧
    (t.regs.elen ≠ s.regs.elen → ∃ v rest, s.host.script = .wr 3 v :: rest ∧ ready s) ∧
    (t.regs.padReq ≠ s.regs.padReq → ∃ v rest, s.host.script = .wr 4 v :: rest ∧ ready s) ∧
    (t.regs.padTarget ≠ s.regs.padTarget → ∃ v rest, s.host.script = .wr 5 v :: rest ∧ ready s) ∧
    (t.regs.padFill ≠ s.regs.padFill → ∃ v rest, s.host.script = .wr 6 v :: rest ∧ ready s) ∧
    (t.ebuf ≠ s.ebuf → ∃ off b rest, s.host.script = .ebufWr off b :: rest ∧ ready s) ∧
    (t.engine.rt ≠ s.engine.rt ∨ t.status.tblValid ≠ s.status.tblValid →
      tableBuilt t ∧ (issues .engInit s ∨ issues .toolRun s)) ∧
    (t.regs.toolCrc ≠ s.regs.toolCrc → runsAt .computeCrc s ∨ runsAt .pad s) ∧
    (t.regs.imgSize ≠ s.regs.imgSize → runsAt .sizeValidate s) ∧
    (t.regs.padLen ≠ s.regs.padLen → runsAt .pad s ∨ issues .toolRun s) ∧
    (t.tool.runPadReq ≠ s.tool.runPadReq ∨ t.tool.runTarget ≠ s.tool.runTarget ∨ t.tool.runFill ≠ s.tool.runFill →
      issues .toolRun s) ∧
    (s.tool.rdOpen = false → t.tool.rdOpen = true → runsAt .openRead s) ∧
    (s.tool.apOpen = false → t.tool.apOpen = true → runsAt .openAppend s) ∧
    (s.tool.rdOpen = true ∧ t.tool.rdOpen = false ∨ s.tool.apOpen = true ∧ t.tool.apOpen = false →
      runEnds s t ∧ t.tool.rdOpen = false ∧ t.tool.apOpen = false) ∧
    t.params = s.params

/-- A run whose file call the host has not answered waits: the step changes nothing (R161; the queues are the model's,
log 2). -/
def Obligations.UnansweredCallWaits : Prop :=
  ∀ (s : State) (file : List Byte), s.host.file = some file →
    (runsAt .openRead s → s.host.openReadAnswers = [] → blockStep s = .next s) ∧
    (runsAt .readBuffer s → file ≠ [] → s.host.readAnswers = [] → blockStep s = .next s) ∧
    (runsAt .openAppend s → s.tool.runPadReq.isSome = true → s.host.openAppendAnswers = [] →
      blockStep s = .next s) ∧
    (∀ target fill n, runsAt .pad s → s.tool.runPadReq = some true → s.tool.runTarget = some target →
      s.tool.runFill = some fill → s.regs.imgSize = some n → padOf target fill n.toNat ≠ [] →
      s.host.padWriteAnswers = [] → blockStep s = .next s) ∧
    (runsAt .writeCrc s → s.regs.toolCrc.isSome = true → s.host.crcWriteAnswers = [] → blockStep s = .next s)

/-- A run whose image exceeds MAX_IMAGE_BYTES is stuck in SIZE_VALIDATE with BUSY = 1, however long a quiet host lets
it step (R117, D17). That it repeats the step is the model's reading (log 14), and the low 64 bits of the size of an
image of 2^64 bytes or more are its choice (log 15). -/
def Obligations.OversizedImageIsStuck : Prop :=
  ∀ (s : State) (file : List Byte) (m k : Nat), runsAt .sizeValidate s → hostQuiet s → s.host.file = some file →
    s.params.maxImageBytes = some m → m < file.length →
    core.run (k + 1) s = .next { s with regs.imgSize := some (BitVec.ofNat 64 file.length) }

/-! ### The invariant -/

/-- The invariant holds after reset, whatever the parameters and the host. -/
def Obligations.ResetMeetsTheInvariant : Prop :=
  Coherent State.reset ∧ ∀ (p : Params) (h : HostSide), Coherent (State.launch p h)

/-- Every step keeps the invariant, whatever the host does and answers. -/
def Obligations.StepKeepsTheInvariant : Prop := ∀ s t : State, Coherent s → step s = .next t → Coherent t

/-- From every state with the invariant the machine steps: no fault and no refusal of the model is reachable. -/
def Obligations.EveryStateOfTheInvariantSteps : Prop := ∀ s : State, Coherent s → ∃ t, step s = .next t

/-! ### Whole runs -/

/-- The outcome of every run that ends (R149 with R127 and R129): what CAUSE, EXIT, FILE and TOOL_CRC are then, for
each cause, where the host makes no further move. `file0` is FILE at the start, `pad` the pad ([] without padding). -/
def Obligations.RunsEndAsTheOutcomeTableSays : Prop :=
  ∀ (s t u : State) (k : Nat) (ops : ToolOperands), Coherent s → ready s → s.host.script = [] →
    toolOperands s = some ops → exec .toolRun s = .next t → core.run k t = .next u → u.status.busy = false →
    let file0 := s.host.file.getD []
    let pad := match ops.descriptor with
      | some (target, fill) => padOf target fill file0.length
      | none => []
    let dataCrc := crc32 s.params.byteOrder file0
    let lastCrc := if ops.descriptor = none then dataCrc else crc32 s.params.byteOrder pad
    u.status.fault = false ∧ u.status.refused = false ∧ u.status.done = true ∧
    match u.status.cause with
    | .none =>
      u.status.exit = .success ∧ u.regs.seqState = .done ∧ u.regs.toolCrc = some lastCrc ∧
      s.host.file = some file0 ∧ u.host.file = some (file0 ++ pad ++ bytes32 s.params.byteOrder lastCrc)
    | .run c =>
      u.status.exit = category c ∧ u.regs.seqState = .fail ∧
      match c with
      | .fileOpenErrorRead | .invalidPaddingConfig | .unalignedImageSize | .readError =>
        u.host.file = s.host.file ∧ u.regs.toolCrc = s.regs.toolCrc
      | .alreadyChecksummed =>
        u.host.file = s.host.file ∧ u.regs.toolCrc = some dataCrc ∧ dataCrc = 0#32 ∧ ops.descriptor = none
      | .fileOpenErrorAppend => u.host.file = s.host.file ∧ u.regs.toolCrc = some dataCrc
      | .writeErrorPad =>
        ∃ g, g.length < pad.length ∧ u.host.file = some (file0 ++ g) ∧ u.regs.toolCrc = some lastCrc
      | .writeErrorCrc =>
        ∃ g, g.length < 4 ∧ u.host.file = some (file0 ++ pad ++ g) ∧ u.regs.toolCrc = some lastCrc
    | .engine _ | .refusal _ => False

/-- A run without padding whose file calls succeed, on an image with a length that is a multiple of 4 and a nonzero
CRC: after 8 further steps it is DONE and the CRC of the image is appended (R113, R127). The low 64 bits of the size of
an image of 2^64 bytes or more are the model's choice (log 15). -/
def Obligations.UnpaddedRunAppendsTheImageCrc : Prop :=
  ∀ (s : State) (file : List Byte), Coherent s → ready s → hostQuiet s → s.regs.padReq = some false →
    s.host.file = some file → file.length % 4 = 0 → exceedsMaxImage s.params file.length = false →
    crc32 s.params.byteOrder file ≠ 0#32 → allSucceed s.host →
    ∃ t u, exec .toolRun s = .next t ∧ core.run 8 t = .next u ∧
      u.host.file = some (file ++ bytes32 s.params.byteOrder (crc32 s.params.byteOrder file)) ∧
      u.regs.toolCrc = some (crc32 s.params.byteOrder file) ∧
      u.regs.imgSize = some (BitVec.ofNat 64 file.length) ∧ u.regs.padLen = some 0#64 ∧
      u.regs.seqState = .done ∧ u.status.busy = false ∧ u.status.done = true ∧ u.status.cause = .none ∧
      u.status.exit = .success ∧ u.status.fault = false ∧ u.status.refused = false ∧
      u.regs.result = s.regs.result ∧ u.ebuf = s.ebuf ∧ released u

/-- A run with valid padding whose file calls succeed: after 9 further steps it is DONE, the pad and the CRC of the pad
alone are appended, and FILE has exactly the target size (R113, R123, R127, R128). -/
def Obligations.PaddedRunAppendsThePadCrc : Prop :=
  ∀ (s : State) (file : List Byte) (target fill : Dword), Coherent s → ready s → hostQuiet s →
    s.regs.padReq = some true → s.regs.padTarget = some target → s.regs.padFill = some fill →
    s.host.file = some file → file.length % 4 = 0 → exceedsMaxImage s.params file.length = false →
    padOk target.toInt fill.toInt file.length = true → allSucceed s.host →
    let pad := padOf target.toInt fill.toInt file.length
    ∃ t u out, exec .toolRun s = .next t ∧ core.run 9 t = .next u ∧ u.host.file = some out ∧
      out = file ++ pad ++ bytes32 s.params.byteOrder (crc32 s.params.byteOrder pad) ∧
      (out.length : Int) = target.toInt ∧ u.regs.toolCrc = some (crc32 s.params.byteOrder pad) ∧
      u.regs.imgSize = some (BitVec.ofNat 64 file.length) ∧
      u.regs.padLen = some (BitVec.ofNat 64 pad.length) ∧ u.regs.seqState = .done ∧
      u.status.busy = false ∧ u.status.done = true ∧ u.status.cause = .none ∧ u.status.exit = .success ∧
      u.status.fault = false ∧ u.status.refused = false ∧ u.regs.result = s.regs.result ∧ u.ebuf = s.ebuf ∧
      released u

/-- Every run ends after at most 10 steps, START among them, where the host answers its calls and the image does not
exceed MAX_IMAGE_BYTES (R130). -/
def Obligations.EveryRunEndsWithinTenSteps : Prop :=
  ∀ s : State, Coherent s → ready s → hostQuiet s → (toolOperands s).isSome = true → allAnswered s.host →
    (∀ file, s.host.file = some file → exceedsMaxImage s.params file.length = false) →
    ∃ t u k, exec .toolRun s = .next t ∧ k ≤ 9 ∧ core.run k t = .next u ∧ u.status.busy = false ∧
      (u.regs.seqState = .done ∨ u.regs.seqState = .fail)

/-- A second run on the output of a successful run (R180, marked [derived] there). Without padding, on the output of an
unpadded run, it ends in ALREADY_CHECKSUMMED; with the same target and any fill, on the output of a padded run, in
INVALID_PADDING_CONFIG; FILE stays as it is either way. Without padding, on the output of a padded run, it appends a
second CRC unless the CRC of that output is 0, which it is only where the CRC of image and pad equals that of the
pad. -/
def Obligations.RerunsEndAsTheOutputDecides : Prop :=
  ∀ (s : State) (file0 file : List Byte), Coherent s → ready s → hostQuiet s → s.host.file = some file →
    file0.length % 4 = 0 → exceedsMaxImage s.params file.length = false → allSucceed s.host →
    (s.regs.padReq = some false →
      file = file0 ++ bytes32 s.params.byteOrder (crc32 s.params.byteOrder file0) →
      ∃ t u k, exec .toolRun s = .next t ∧ core.run k t = .next u ∧ u.status.busy = false ∧
        u.status.cause = .run .alreadyChecksummed ∧ u.status.exit = .alreadyChecksummed ∧
        u.host.file = some file) ∧
    (∀ (target fill : Dword) (fill0 : Int), s.regs.padReq = some true → s.regs.padTarget = some target →
      s.regs.padFill = some fill → padOk target.toInt fill0 file0.length = true →
      let pad := padOf target.toInt fill0 file0.length
      file = file0 ++ pad ++ bytes32 s.params.byteOrder (crc32 s.params.byteOrder pad) →
      ∃ t u k, exec .toolRun s = .next t ∧ core.run k t = .next u ∧ u.status.busy = false ∧
        u.status.cause = .run .invalidPaddingConfig ∧ u.status.exit = .validation ∧ u.host.file = some file) ∧
    (∀ target fill : Int, s.regs.padReq = some false → padOk target fill file0.length = true →
      let pad := padOf target fill file0.length
      file = file0 ++ pad ++ bytes32 s.params.byteOrder (crc32 s.params.byteOrder pad) →
      (crc32 s.params.byteOrder file = 0#32 ↔
        crc32 s.params.byteOrder (file0 ++ pad) = crc32 s.params.byteOrder pad) ∧
      (crc32 s.params.byteOrder file ≠ 0#32 →
        ∃ t u k, exec .toolRun s = .next t ∧ core.run k t = .next u ∧ u.status.busy = false ∧
          u.status.cause = .none ∧
          u.host.file = some (file ++ bytes32 s.params.byteOrder (crc32 s.params.byteOrder file))))

/-- R126: with padding, what a run appends depends on the size of the image and not on its bytes. -/
def Obligations.PaddedOutputIgnoresTheImage : Prop :=
  ∀ (s1 s2 : State) (file1 file2 : List Byte) (target fill : Dword),
    (∀ s ∈ [s1, s2], Coherent s ∧ ready s ∧ hostQuiet s ∧ s.regs.padReq = some true ∧
      s.regs.padTarget = some target ∧ s.regs.padFill = some fill ∧ allSucceed s.host) →
    s1.params = s2.params → s1.host.file = some file1 → s2.host.file = some file2 →
    file1.length = file2.length → file1.length % 4 = 0 →
    exceedsMaxImage s1.params file1.length = false → padOk target.toInt fill.toInt file1.length = true →
    ∃ t1 t2 u1 u2 added, exec .toolRun s1 = .next t1 ∧ exec .toolRun s2 = .next t2 ∧
      core.run 9 t1 = .next u1 ∧ core.run 9 t2 = .next u2 ∧
      u1.host.file = some (file1 ++ added) ∧ u2.host.file = some (file2 ++ added) ∧
      u1.regs.toolCrc = u2.regs.toolCrc ∧ u1.status.cause = .none ∧ u2.status.cause = .none
end

