-- ==== Sys2Proof/Laws/State.lean ====
section
/-! SUPPORT. One lemma per field of State and named update, so that no proof unfolds an update (the groups an update
leaves alone, and the record it leaves in the group it writes). -/

namespace Sys2Proof.Machine

/-! ### `refuse` -/

@[simp] theorem refuse_params (c : RefusalCause) (s : State) : (refuse c s).params = s.params := rfl
@[simp] theorem refuse_status (c : RefusalCause) (s : State) :
    (refuse c s).status = { s.status with refused := true, cause := .refusal c } := rfl
@[simp] theorem refuse_regs (c : RefusalCause) (s : State) : (refuse c s).regs = s.regs := rfl
@[simp] theorem refuse_engine (c : RefusalCause) (s : State) : (refuse c s).engine = s.engine := rfl
@[simp] theorem refuse_tool (c : RefusalCause) (s : State) : (refuse c s).tool = s.tool := rfl
@[simp] theorem refuse_ebuf (c : RefusalCause) (s : State) : (refuse c s).ebuf = s.ebuf := rfl
@[simp] theorem refuse_host (c : RefusalCause) (s : State) : (refuse c s).host = s.host := rfl

/-! ### `raiseEngineFault` -/

@[simp] theorem raiseEngineFault_params (c : EngineCause) (s : State) :
    (raiseEngineFault c s).params = s.params := rfl
@[simp] theorem raiseEngineFault_status (c : EngineCause) (s : State) :
    (raiseEngineFault c s).status = { s.status with fault := true, cause := .engine c, busy := false } := rfl
@[simp] theorem raiseEngineFault_regs (c : EngineCause) (s : State) : (raiseEngineFault c s).regs = s.regs := rfl
@[simp] theorem raiseEngineFault_engine (c : EngineCause) (s : State) :
    (raiseEngineFault c s).engine = { s.engine with acc := none, widx := none } := rfl
@[simp] theorem raiseEngineFault_tool (c : EngineCause) (s : State) : (raiseEngineFault c s).tool = s.tool := rfl
@[simp] theorem raiseEngineFault_ebuf (c : EngineCause) (s : State) : (raiseEngineFault c s).ebuf = s.ebuf := rfl
@[simp] theorem raiseEngineFault_host (c : EngineCause) (s : State) : (raiseEngineFault c s).host = s.host := rfl

/-! ### `failExit` -/

@[simp] theorem failExit_params (c : RunFailure) (s : State) : (failExit c s).params = s.params := rfl
@[simp] theorem failExit_status (c : RunFailure) (s : State) :
    (failExit c s).status = { s.status with cause := .run c, exit := category c, busy := false, done := true } := rfl
@[simp] theorem failExit_regs (c : RunFailure) (s : State) :
    (failExit c s).regs = { s.regs with seqState := .fail } := rfl
@[simp] theorem failExit_engine (c : RunFailure) (s : State) : (failExit c s).engine = s.engine := rfl
@[simp] theorem failExit_tool (c : RunFailure) (s : State) :
    (failExit c s).tool = { s.tool with img := none, padbuf := none, rdOpen := false, apOpen := false } := rfl
@[simp] theorem failExit_ebuf (c : RunFailure) (s : State) : (failExit c s).ebuf = s.ebuf := rfl
@[simp] theorem failExit_host (c : RunFailure) (s : State) : (failExit c s).host = s.host := rfl

/-! ### `beginCommand` -/

@[simp] theorem beginCommand_params (s : State) : (beginCommand s).params = s.params := rfl
@[simp] theorem beginCommand_status (s : State) :
    (beginCommand s).status = { s.status with busy := true, done := false } := rfl
@[simp] theorem beginCommand_regs (s : State) : (beginCommand s).regs = s.regs := rfl
@[simp] theorem beginCommand_engine (s : State) : (beginCommand s).engine = s.engine := rfl
@[simp] theorem beginCommand_tool (s : State) : (beginCommand s).tool = s.tool := rfl
@[simp] theorem beginCommand_ebuf (s : State) : (beginCommand s).ebuf = s.ebuf := rfl
@[simp] theorem beginCommand_host (s : State) : (beginCommand s).host = s.host := rfl

/-! ### `completeCommand` -/

@[simp] theorem completeCommand_params (s : State) : (completeCommand s).params = s.params := rfl
@[simp] theorem completeCommand_status (s : State) :
    (completeCommand s).status = { s.status with cause := .none, busy := false, done := true } := rfl
@[simp] theorem completeCommand_regs (s : State) : (completeCommand s).regs = s.regs := rfl
@[simp] theorem completeCommand_engine (s : State) : (completeCommand s).engine = s.engine := rfl
@[simp] theorem completeCommand_tool (s : State) : (completeCommand s).tool = s.tool := rfl
@[simp] theorem completeCommand_ebuf (s : State) : (completeCommand s).ebuf = s.ebuf := rfl
@[simp] theorem completeCommand_host (s : State) : (completeCommand s).host = s.host := rfl

/-! ### `buildTable` -/

@[simp] theorem buildTable_params (s : State) : (buildTable s).params = s.params := rfl
@[simp] theorem buildTable_status (s : State) : (buildTable s).status = { s.status with tblValid := true } := rfl
@[simp] theorem buildTable_regs (s : State) : (buildTable s).regs = s.regs := rfl
@[simp] theorem buildTable_engine (s : State) : (buildTable s).engine = { s.engine with rt := some revTable } := rfl
@[simp] theorem buildTable_tool (s : State) : (buildTable s).tool = s.tool := rfl
@[simp] theorem buildTable_ebuf (s : State) : (buildTable s).ebuf = s.ebuf := rfl
@[simp] theorem buildTable_host (s : State) : (buildTable s).host = s.host := rfl

/-! ### `resetBlock` -/

@[simp] theorem resetBlock_params (s : State) : (resetBlock s).params = s.params := rfl
@[simp] theorem resetBlock_status (s : State) : (resetBlock s).status = Status.reset := rfl
@[simp] theorem resetBlock_regs (s : State) : (resetBlock s).regs = IfaceRegs.reset := rfl
@[simp] theorem resetBlock_engine (s : State) : (resetBlock s).engine = EngineRegs.reset := rfl
@[simp] theorem resetBlock_tool (s : State) : (resetBlock s).tool = ToolRegs.reset := rfl
@[simp] theorem resetBlock_ebuf (s : State) : (resetBlock s).ebuf = [] := rfl
@[simp] theorem resetBlock_host (s : State) : (resetBlock s).host = s.host := rfl

/-! ### What reset leaves -/

@[simp] theorem launch_params (p : Params) (h : HostSide) : (State.launch p h).params = p := rfl
@[simp] theorem launch_status (p : Params) (h : HostSide) : (State.launch p h).status = .reset := rfl
@[simp] theorem launch_regs (p : Params) (h : HostSide) : (State.launch p h).regs = .reset := rfl
@[simp] theorem launch_engine (p : Params) (h : HostSide) : (State.launch p h).engine = .reset := rfl
@[simp] theorem launch_tool (p : Params) (h : HostSide) : (State.launch p h).tool = .reset := rfl
@[simp] theorem launch_ebuf (p : Params) (h : HostSide) : (State.launch p h).ebuf = [] := rfl
@[simp] theorem launch_host (p : Params) (h : HostSide) : (State.launch p h).host = h := rfl

/-- A state is its seven groups. -/
theorem State.ext_groups {s t : State} (hp : s.params = t.params) (hs : s.status = t.status) (hr : s.regs = t.regs)
    (he : s.engine = t.engine) (ht : s.tool = t.tool) (hb : s.ebuf = t.ebuf) (hh : s.host = t.host) : s = t := by
  cases s; cases t; simp_all

end Sys2Proof.Machine
end

