-- ==== Sys2Proof/Laws/Ops.lean ====
section
/-! SUPPORT. What the shared operations can do: the issue conditions, the host's answers, the internal request, and
the built table. -/

namespace Sys2Proof.Machine

/-! ### Issue conditions -/

theorem atIssue_halted {s : State} (k : State → Result) (h : halted s = true) : atIssue s k = .next s := by
  simp [atIssue, h]

theorem atIssue_busy {s : State} (k : State → Result) (h : halted s = false) (hb : s.status.busy = true) :
    atIssue s k = .next (refuse .illegalAccess s) := by
  simp [atIssue, h, hb]

theorem atIssue_ready {s : State} (k : State → Result) (h : ready s) : atIssue s k = k s := by
  simp [atIssue, h.1, h.2]

/-- Everything `atIssue` can do. -/
theorem atIssue_cases {s t : State} {k : State → Result} (h : atIssue s k = .next t) :
    (halted s = true ∧ t = s) ∨ (halted s = false ∧ s.status.busy = true ∧ t = refuse .illegalAccess s) ∨
      (ready s ∧ k s = .next t) := by
  cases hh : halted s with
  | true => rw [atIssue_halted k hh] at h; cases h; exact .inl ⟨rfl, rfl⟩
  | false =>
    cases hb : s.status.busy with
    | true => rw [atIssue_busy k hh hb] at h; cases h; exact .inr (.inl ⟨rfl, rfl, rfl⟩)
    | false => rw [atIssue_ready k ⟨hh, hb⟩] at h; exact .inr (.inr ⟨⟨hh, hb⟩, h⟩)

/-! ### Answers of the host -/

@[simp] theorem onAnswer_forced {α : Type} (s : State) (a : α) (q : List α) (k : α → Result) :
    onAnswer s (some a) q k = k a := by
  cases q <;> rfl

@[simp] theorem onAnswer_queued {α : Type} (s : State) (a : α) (q : List α) (k : α → Result) :
    onAnswer s none (a :: q) k = k a := rfl

@[simp] theorem onAnswer_unanswered {α : Type} (s : State) (k : α → Result) : onAnswer s none [] k = .next s := rfl

/-- Everything `onAnswer` can do: it waits, or goes on with the forced answer or the first of the queue. -/
theorem onAnswer_cases {α : Type} {s t : State} {f : Option α} {q : List α} {k : α → Result}
    (h : onAnswer s f q k = .next t) :
    (f = none ∧ q = [] ∧ t = s) ∨ ∃ a, (f = some a ∨ f = none ∧ q.head? = some a) ∧ k a = .next t := by
  cases f with
  | some a => exact .inr ⟨a, .inl rfl, by simpa using h⟩
  | none =>
    cases q with
    | nil => exact .inl ⟨rfl, rfl, by simpa using h.symm⟩
    | cons a q => exact .inr ⟨a, .inr ⟨rfl, rfl⟩, h⟩

theorem appended_all (bytes : List Byte) : WriteAnswer.all.appended bytes = bytes := rfl

theorem complete_all (bytes : List Byte) : WriteAnswer.all.complete bytes = true := rfl

/-- A complete append adds all its bytes (R56). -/
theorem appended_of_complete {bytes : List Byte} {a : WriteAnswer} (h : a.complete bytes = true) :
    a.appended bytes = bytes := by
  cases a with
  | all => rfl
  | short g =>
    have : bytes.length ≤ g.length := by simpa [WriteAnswer.complete] using h
    simp [WriteAnswer.appended, Nat.not_lt.mpr this]

/-- A short append adds fewer bytes (R56). -/
theorem length_appended_of_short {bytes : List Byte} {a : WriteAnswer} (h : a.complete bytes = false) :
    (a.appended bytes).length < bytes.length := by
  cases a with
  | all => simp [WriteAnswer.complete] at h
  | short g =>
    have : g.length < bytes.length := by simpa [WriteAnswer.complete] using h
    simp [WriteAnswer.appended, this]

/-! ### The built table and the internal request -/

theorem builtTable_of_tableBuilt {s : State} (h : tableBuilt s) : builtTable s = some revTable := by
  simp [builtTable, h.1, h.2]

/-- With the invariant, a table that TBL_VALID says is built is the Reversal Table. -/
theorem tableBuilt_of_valid {s : State} (h : tableInv s) (hv : s.status.tblValid = true) : tableBuilt s :=
  ⟨hv, by simpa [tableInv, hv] using h⟩

theorem builtTable_eq_none {s : State} (h : s.status.tblValid = false) : builtTable s = none := by
  simp [builtTable, h]

theorem engineRequest_built {s : State} {t : ByteTable} (bytes : List Byte) (k : Word → State → Result)
    (h : builtTable s = some t) :
    engineRequest bytes s k =
      k (revw t (accAfter t s.params.byteOrder bytes))
        { s with engine.acc := some (accAfter t s.params.byteOrder bytes), engine.widx := none } := by
  simp [engineRequest, h]

theorem engineRequest_notBuilt {s : State} (bytes : List Byte) (k : Word → State → Result)
    (h : builtTable s = none) : engineRequest bytes s k = .next (raiseEngineFault .tableNotBuilt s) := by
  simp [engineRequest, h]

end Sys2Proof.Machine
end

