-- ==== Sys2Proof/Laws/Block.lean ====
section
/-! SUPPORT. Everything a step of the block can do, said once: one constructor of `BlockCase` per outcome, and
`blockStep_case`, which the proofs about every step cite instead of unfolding the units. -/

namespace Sys2Proof.Machine

/-- An ENG_CRC32 is in progress at word index `i` and the block is not halted. -/
def enginePending (i : Dword) (s : State) : Prop :=
  halted s = false ∧ s.status.busy = true ∧ s.engine.widx = some i

/-- What a step of the block can lead to. -/
inductive BlockCase (s : State) : State → Prop
  /-- Halted, idle, waiting for an answer. -/
  | stays : BlockCase s s
  /-- An engine fault of an ENG_CRC32 in progress. -/
  | engineFault (i : Dword) (c : EngineCause) (h : enginePending i s) : BlockCase s (raiseEngineFault c s)
  /-- A word step. -/
  | wordStep (l i : Dword) (tab : ByteTable) (a w : Word) (h : computesAt l i s) (hi : i.toNat < l.toNat / 4)
      (htab : builtTable s = some tab) (hw : ebufWord s.params.byteOrder s.ebuf i.toNat = some w)
      (ha : s.engine.acc = some a) :
      BlockCase s { s with engine.acc := some (wordstep tab a w), engine.widx := some (i + 1#64) }
  /-- The final step. -/
  | finalStep (l i : Dword) (tab : ByteTable) (a : Word) (h : computesAt l i s) (hi : i.toNat = l.toNat / 4)
      (htab : builtTable s = some tab) (ha : s.engine.acc = some a) :
      BlockCase s (completeCommand
        { s with regs.result := some (revw tab a), engine.acc := none, engine.widx := none })
  | openReadFails (h : runsAt .openRead s) :
      BlockCase s (failExit .fileOpenErrorRead { s with host.openReadAnswers := s.host.openReadAnswers.tail })
  | openReadOpens (h : runsAt .openRead s) (file : List Byte) (hf : s.host.file = some file)
      (ha : s.host.openReadAnswers.head? = some .ok) :
      BlockCase s
        { s with
          host.openReadAnswers := s.host.openReadAnswers.tail, tool.rdOpen := true, regs.seqState := .sizeValidate }
  | sizeStuck (h : runsAt .sizeValidate s) (file : List Byte) (hf : s.host.file = some file)
      (hx : exceedsMaxImage s.params file.length = true) :
      BlockCase s { s with regs.imgSize := some (BitVec.ofNat 64 file.length) }
  | sizeBadPadding (h : runsAt .sizeValidate s) (file : List Byte) (hf : s.host.file = some file)
      (target fill : Int) (hd : latchedPadding s = .ok (some (target, fill)))
      (hp : padOk target fill file.length = false) :
      BlockCase s (failExit .invalidPaddingConfig { s with regs.imgSize := some (BitVec.ofNat 64 file.length) })
  | sizeUnaligned (h : runsAt .sizeValidate s) (file : List Byte) (hf : s.host.file = some file)
      (hn : file.length % 4 ≠ 0) :
      BlockCase s (failExit .unalignedImageSize { s with regs.imgSize := some (BitVec.ofNat 64 file.length) })
  | sizeValid (h : runsAt .sizeValidate s) (file : List Byte) (hf : s.host.file = some file)
      (hx : exceedsMaxImage s.params file.length = false) (hn : file.length % 4 = 0)
      (hp : ∀ target fill, latchedPadding s = .ok (some (target, fill)) → padOk target fill file.length = true) :
      BlockCase s { s with regs.imgSize := some (BitVec.ofNat 64 file.length), regs.seqState := .readBuffer }
  | readFails (h : runsAt .readBuffer s) (file : List Byte) (hf : s.host.file = some file) :
      BlockCase s (failExit .readError { s with host.readAnswers := s.host.readAnswers.tail })
  | readReads (h : runsAt .readBuffer s) (file : List Byte) (hf : s.host.file = some file) :
      BlockCase s
        { s with
          host.readAnswers := s.host.readAnswers.tail, tool.img := some file, regs.seqState := .computeCrc }
  | computeFaults (h : runsAt .computeCrc s) (htab : builtTable s = none) :
      BlockCase s (raiseEngineFault .tableNotBuilt s)
  | computes (h : runsAt .computeCrc s) (img : List Byte) (hi : s.tool.img = some img) (tab : ByteTable)
      (htab : builtTable s = some tab) :
      BlockCase s
        { s with
          regs.toolCrc := some (revw tab (accAfter tab s.params.byteOrder img)), tool.img := none
          regs.seqState := .zeroCrcCheck, engine.acc := some (accAfter tab s.params.byteOrder img)
          engine.widx := none }
  | zeroCrcFails (h : runsAt .zeroCrcCheck s) (hc : s.regs.toolCrc = some 0#32)
      (hp : s.tool.runPadReq = some false) : BlockCase s (failExit .alreadyChecksummed s)
  | zeroCrcPasses (h : runsAt .zeroCrcCheck s) (crc : Word) (padReq : Bool) (hc : s.regs.toolCrc = some crc)
      (hp : s.tool.runPadReq = some padReq) (hn : ¬(crc = 0#32 ∧ padReq = false)) :
      BlockCase s { s with regs.seqState := .openAppend }
  | openAppendFails (h : runsAt .openAppend s) :
      BlockCase s (failExit .fileOpenErrorAppend
        { s with host.openAppendAnswers := s.host.openAppendAnswers.tail })
  | openAppendOpens (h : runsAt .openAppend s) (padReq : Bool) (hp : s.tool.runPadReq = some padReq) :
      BlockCase s
        { s with
          host.openAppendAnswers := s.host.openAppendAnswers.tail, tool.apOpen := true
          regs.seqState := if padReq then .pad else .writeCrc }
  | padFaults (h : runsAt .pad s) (htab : builtTable s = none) (target fill : Int) (n : Dword) :
      BlockCase s (raiseEngineFault .tableNotBuilt
        { s with
          host.padWriteAnswers := s.host.padWriteAnswers.tail
          regs.padLen := some (BitVec.ofInt 64 (target - 4 - n.toNat))
          tool.padbuf := some (padOf target fill n.toNat) })
  | padWrites (h : runsAt .pad s) (tab : ByteTable) (htab : builtTable s = some tab) (target fill : Int) (n : Dword)
      (file : List Byte) (a : WriteAnswer) (hd : latchedPadding s = .ok (some (target, fill)))
      (hn : s.regs.imgSize = some n) (hf : s.host.file = some file)
      (hc : a.complete (padOf target fill n.toNat) = true) :
      BlockCase s
        { s with
          host.padWriteAnswers := s.host.padWriteAnswers.tail
          host.file := some (file ++ padOf target fill n.toNat)
          regs.padLen := some (BitVec.ofInt 64 (target - 4 - n.toNat))
          regs.toolCrc := some (revw tab (accAfter tab s.params.byteOrder (padOf target fill n.toNat)))
          regs.seqState := .writeCrc
          engine.acc := some (accAfter tab s.params.byteOrder (padOf target fill n.toNat)), engine.widx := none
          tool.padbuf := none }
  | padShort (h : runsAt .pad s) (tab : ByteTable) (htab : builtTable s = some tab) (target fill : Int) (n : Dword)
      (file g : List Byte) (hd : latchedPadding s = .ok (some (target, fill)))
      (hn : s.regs.imgSize = some n) (hf : s.host.file = some file)
      (hg : g.length < (padOf target fill n.toNat).length) :
      BlockCase s (failExit .writeErrorPad
        { s with
          host.padWriteAnswers := s.host.padWriteAnswers.tail, host.file := some (file ++ g)
          regs.padLen := some (BitVec.ofInt 64 (target - 4 - n.toNat))
          regs.toolCrc := some (revw tab (accAfter tab s.params.byteOrder (padOf target fill n.toNat)))
          engine.acc := some (accAfter tab s.params.byteOrder (padOf target fill n.toNat)), engine.widx := none
          tool.padbuf := none })
  | crcWrites (h : runsAt .writeCrc s) (crc : Word) (file : List Byte) (hc : s.regs.toolCrc = some crc)
      (hf : s.host.file = some file) :
      BlockCase s
        { s with
          host.crcWriteAnswers := s.host.crcWriteAnswers.tail
          host.file := some (file ++ bytes32 s.params.byteOrder crc), regs.seqState := .done }
  | crcShort (h : runsAt .writeCrc s) (crc : Word) (file g : List Byte) (hc : s.regs.toolCrc = some crc)
      (hf : s.host.file = some file) (hg : g.length < 4) :
      BlockCase s (failExit .writeErrorCrc
        { s with
          host.crcWriteAnswers := s.host.crcWriteAnswers.tail, host.file := some (file ++ g) })
  | doneEnds (h : runsAt .done s) :
      BlockCase s
        { s with
          tool.rdOpen := false, tool.apOpen := false, status.cause := .none, status.exit := .success
          status.busy := false, status.done := true }

@[simp] theorem length_bytes32 (o : ByteOrder) (v : Word) : (bytes32 o v).length = 4 := by cases o <;> rfl

/-! ### One inversion lemma per unit -/

theorem engineStep_case {s t : State} {i : Dword} (hp : enginePending i s) (h : engineStep i s = .next t) :
    BlockCase s t := by
  obtain ⟨hh, hb, hw⟩ := hp
  unfold engineStep at h
  split at h
  · cases h
  · rename_i l hl
    have hc : computesAt l i s := ⟨hh, hb, hw, hl⟩
    split at h
    · rename_i hi
      unfold engineWordStep at h
      split at h
      · cases h; exact .engineFault i _ ⟨hh, hb, hw⟩
      · rename_i tab htab
        split at h
        · cases h; exact .engineFault i _ ⟨hh, hb, hw⟩
        · rename_i w hword
          split at h
          · cases h
          · rename_i a ha
            cases h; exact .wordStep l i tab a w hc hi htab hword ha
    · split at h
      · rename_i hi
        unfold engineFinalStep at h
        split at h
        · cases h; exact .engineFault i _ ⟨hh, hb, hw⟩
        · rename_i tab htab
          split at h
          · cases h
          · rename_i a ha
            cases h; exact .finalStep l i tab a hc hi htab ha
      · cases h

theorem toolOpenRead_case {s t : State} (hr : runsAt .openRead s) (h : toolOpenRead s = .next t) : BlockCase s t := by
  unfold toolOpenRead at h
  rcases onAnswer_cases h with ⟨-, -, rfl⟩ | ⟨a, ha, hk⟩
  · exact .stays
  · cases a with
    | fail => cases hk; exact .openReadFails hr
    | ok =>
      cases hk
      cases hf : s.host.file with
      | none => simp [hf] at ha
      | some file =>
        refine .openReadOpens hr file hf ?_
        simpa [hf] using ha

theorem toolSizeValidate_case {s t : State} (hr : runsAt .sizeValidate s) (h : toolSizeValidate s = .next t) :
    BlockCase s t := by
  unfold toolSizeValidate at h
  split at h
  · cases h
  · rename_i file hf
    dsimp only at h
    split at h
    · rename_i hx
      cases h; exact .sizeStuck hr file hf hx
    · rename_i hx
      have hl : latchedPadding { s with regs.imgSize := some (BitVec.ofNat 64 file.length) } = latchedPadding s := rfl
      rw [hl] at h
      cases hd : latchedPadding s with
      | error f => rw [hd] at h; cases h
      | ok d =>
        rw [hd] at h
        cases d with
        | none =>
          dsimp only at h
          split at h
          · rename_i hc; cases hc
          · split at h
            · rename_i hn; cases h; exact .sizeUnaligned hr file hf hn
            · rename_i hn
              cases h
              exact .sizeValid hr file hf (by simpa using hx) (by simpa using hn) fun _ _ hcon => by
                rw [hd] at hcon; cases hcon
        | some tf =>
          obtain ⟨target, fill⟩ := tf
          dsimp only at h
          split at h
          · rename_i hp
            cases h; exact .sizeBadPadding hr file hf target fill hd (by simpa using hp)
          · rename_i hp
            split at h
            · rename_i hn; cases h; exact .sizeUnaligned hr file hf hn
            · rename_i hn
              cases h
              refine .sizeValid hr file hf (by simpa using hx) (by simpa using hn) fun target' fill' hcon => ?_
              rw [hd] at hcon
              cases hcon
              simpa using hp

theorem toolReadBuffer_case {s t : State} (hr : runsAt .readBuffer s) (h : toolReadBuffer s = .next t) :
    BlockCase s t := by
  unfold toolReadBuffer at h
  split at h
  · cases h
  · rename_i file hf
    rcases onAnswer_cases h with ⟨-, -, rfl⟩ | ⟨a, -, hk⟩
    · exact .stays
    · dsimp only at hk
      split at hk
      · cases hk; exact .readFails hr file hf
      · cases hk
        simpa [memRead] using BlockCase.readReads hr file hf

theorem toolComputeCrc_case {s t : State} (hr : runsAt .computeCrc s) (h : toolComputeCrc s = .next t) :
    BlockCase s t := by
  unfold toolComputeCrc at h
  split at h
  · cases h
  · rename_i img hi
    cases htab : builtTable s with
    | none => rw [engineRequest_notBuilt _ _ htab] at h; cases h; exact .computeFaults hr htab
    | some tab => rw [engineRequest_built _ _ htab] at h; cases h; exact .computes hr img hi tab htab

theorem toolZeroCrcCheck_case {s t : State} (hr : runsAt .zeroCrcCheck s) (h : toolZeroCrcCheck s = .next t) :
    BlockCase s t := by
  unfold toolZeroCrcCheck at h
  split at h
  · cases h
  · cases h
  · rename_i crc padReq hc hp
    split at h
    · rename_i hz
      obtain ⟨rfl, rfl⟩ := hz
      cases h; exact .zeroCrcFails hr hc hp
    · rename_i hz
      cases h; exact .zeroCrcPasses hr crc padReq hc hp hz

theorem toolOpenAppend_case {s t : State} (hr : runsAt .openAppend s) (h : toolOpenAppend s = .next t) :
    BlockCase s t := by
  unfold toolOpenAppend at h
  split at h
  · cases h
  · rename_i padReq hp
    rcases onAnswer_cases h with ⟨-, -, rfl⟩ | ⟨a, -, hk⟩
    · exact .stays
    · cases a with
      | fail => cases hk; exact .openAppendFails hr
      | ok => cases hk; exact .openAppendOpens hr padReq hp

theorem toolPad_case {s t : State} (hr : runsAt .pad s) (h : toolPad s = .next t) : BlockCase s t := by
  unfold toolPad at h
  split at h
  · cases h
  · cases h
  · cases h
  · cases h
  · rename_i target fill n file hd hn hf
    rcases onAnswer_cases h with ⟨-, -, rfl⟩ | ⟨a, -, hk⟩
    · exact .stays
    · dsimp only at hk
      unfold engineRequest at hk
      split at hk
      · rename_i htab
        cases hk
        exact .padFaults hr htab target fill n
      · rename_i tab htab
        dsimp only at hk
        split at hk
        · rename_i hc
          cases hk
          rw [memAppend, appended_of_complete hc]
          exact .padWrites hr tab htab target fill n file a hd hn hf hc
        · rename_i hc
          cases hk
          exact .padShort hr tab htab target fill n file _ hd hn hf (length_appended_of_short (by simpa using hc))

theorem toolWriteCrc_case {s t : State} (hr : runsAt .writeCrc s) (h : toolWriteCrc s = .next t) :
    BlockCase s t := by
  unfold toolWriteCrc at h
  split at h
  · cases h
  · cases h
  · rename_i crc file hc hf
    rcases onAnswer_cases h with ⟨-, -, rfl⟩ | ⟨a, -, hk⟩
    · exact .stays
    · dsimp only at hk
      split at hk
      · rename_i hcomp
        cases hk
        rw [memAppend, appended_of_complete hcomp]
        exact .crcWrites hr crc file hc hf
      · rename_i hcomp
        cases hk
        refine .crcShort hr crc file _ hc hf ?_
        have := length_appended_of_short (a := a) (bytes := bytes32 s.params.byteOrder crc) (by simpa using hcomp)
        rwa [length_bytes32] at this

/-- Everything a step of the block can do. -/
theorem blockStep_case {s t : State} (h : blockStep s = .next t) : BlockCase s t := by
  unfold blockStep at h
  split at h
  · cases h; exact .stays
  · rename_i hh
    have hh : halted s = false := by simpa using hh
    split at h
    · rename_i hb
      split at h
      · rename_i i hw
        exact engineStep_case ⟨hh, hb, hw⟩ h
      · rename_i hw
        unfold toolStep at h
        split at h
        · cases h
        · cases h
        · rename_i hq; exact toolOpenRead_case ⟨hh, hb, hw, hq⟩ h
        · rename_i hq; exact toolSizeValidate_case ⟨hh, hb, hw, hq⟩ h
        · rename_i hq; exact toolReadBuffer_case ⟨hh, hb, hw, hq⟩ h
        · rename_i hq; exact toolComputeCrc_case ⟨hh, hb, hw, hq⟩ h
        · rename_i hq; exact toolZeroCrcCheck_case ⟨hh, hb, hw, hq⟩ h
        · rename_i hq; exact toolOpenAppend_case ⟨hh, hb, hw, hq⟩ h
        · rename_i hq; exact toolPad_case ⟨hh, hb, hw, hq⟩ h
        · rename_i hq; exact toolWriteCrc_case ⟨hh, hb, hw, hq⟩ h
        · rename_i hq; cases h; exact .doneEnds ⟨hh, hb, hw, hq⟩
        · cases h
    · cases h; exact .stays

/-- The step of a run in progress is the sequencer's. -/
theorem blockStep_of_runsAt {s : State} {q : SeqState} (h : runsAt q s) : blockStep s = toolStep s := by
  obtain ⟨hh, hb, hw, -⟩ := h
  unfold blockStep
  rw [hh, hb, hw]
  rfl

/-- A halted block does not step. -/
theorem blockStep_of_halted {s : State} (h : halted s = true) : blockStep s = .next s := by
  unfold blockStep
  rw [if_pos h]

/-- A block that executes no command does not step. -/
theorem blockStep_of_idle {s : State} (h : s.status.busy = false) : blockStep s = .next s := by
  unfold blockStep
  rw [h]
  split <;> rfl

end Sys2Proof.Machine
end

