-- ==== Sys2Proof/Laws/Crc.lean ====
section
/-! SUPPORT. The small lemmas of the CRC datapath: reversal, the linearity of the bit steps, and the words of a byte
sequence. -/

namespace Sys2Proof.Machine

/-! ### Iteration -/

@[simp] theorem iterate_zero {α : Type} (f : α → α) (x : α) : iterate f 0 x = x := rfl

theorem iterate_succ {α : Type} (f : α → α) (n : Nat) (x : α) : iterate f (n + 1) x = iterate f n (f x) := rfl

theorem iterate_add {α : Type} (f : α → α) (m n : Nat) (x : α) :
    iterate f (m + n) x = iterate f n (iterate f m x) := by
  induction m generalizing x with
  | zero => simp
  | succ m ih => rw [Nat.succ_add]; exact ih (f x)

/-- An iterate of a map that commutes with `g` does so too. -/
theorem iterate_commutes {α β : Type} {f : α → α} {f' : β → β} {g : α → β} (h : ∀ x, g (f x) = f' (g x)) (n : Nat)
    (x : α) : g (iterate f n x) = iterate f' n (g x) := by
  induction n generalizing x with
  | zero => rfl
  | succ n ih => rw [iterate_succ, ih, h, iterate_succ]

/-- An iterate of a map that is linear over XOR is linear over XOR. -/
theorem iterate_xor {f : Word → Word} (h : ∀ a b, f (a ^^^ b) = f a ^^^ f b) (n : Nat) (a b : Word) :
    iterate f n (a ^^^ b) = iterate f n a ^^^ iterate f n b := by
  induction n generalizing a b with
  | zero => rfl
  | succ n ih => simp only [iterate_succ, h, ih]

/-- An iterate of a map with fixed point 0 keeps it. -/
theorem iterate_fixed {f : Word → Word} (h : f 0#32 = 0#32) (n : Nat) : iterate f n 0#32 = 0#32 := by
  induction n with
  | zero => rfl
  | succ n ih => rw [iterate_succ, h, ih]

/-! ### Reversal -/

/-- Bit i of `rev8 b` is bit 7-i of `b` (R14). -/
theorem getLsbD_rev8 (b : Byte) {i : Nat} (h : i < 8) : (rev8 b).getLsbD i = b.getLsbD (7 - i) := by
  rw [rev8, BitVec.getLsbD_reverse, BitVec.getMsbD_eq_getLsbD]
  simp only [h, decide_true, Bool.true_and]

/-- Bit i of `rev32 w` is bit 31-i of `w` (R14). -/
theorem getLsbD_rev32 (w : Word) {i : Nat} (h : i < 32) : (rev32 w).getLsbD i = w.getLsbD (31 - i) := by
  rw [rev32, BitVec.getLsbD_reverse, BitVec.getMsbD_eq_getLsbD]
  simp only [h, decide_true, Bool.true_and]

/-- `rev32` is an involution (R14). -/
@[simp] theorem rev32_rev32 (w : Word) : rev32 (rev32 w) = w := by
  simp [rev32]

/-- `rev8` is an involution (R14). -/
@[simp] theorem rev8_rev8 (b : Byte) : rev8 (rev8 b) = b := by
  simp [rev8]

/-- `rev32` distributes over XOR (R98). -/
theorem rev32_xor (a b : Word) : rev32 (a ^^^ b) = rev32 a ^^^ rev32 b := by
  refine BitVec.eq_of_getLsbD_eq fun i h => ?_
  simp only [BitVec.getLsbD_xor, getLsbD_rev32 _ h]

/-- The initial value is its own reversal (R33). -/
@[simp] theorem rev32_initValue : rev32 Config.initValue = Config.initValue := by
  rw [show Config.initValue = BitVec.allOnes 32 by decide]
  refine BitVec.eq_of_getLsbD_eq fun i h => ?_
  rw [getLsbD_rev32 _ h, BitVec.getLsbD_allOnes, BitVec.getLsbD_allOnes]
  simp only [h, show 31 - i < 32 by omega]

/-- RPOLY = rev32(POLY) (R10). -/
theorem rev32_poly : rev32 Config.poly = Config.rpoly := by decide +kernel

@[simp] theorem rev32_zero : rev32 0#32 = 0#32 := by decide +kernel

/-- A read of the built table reverses its byte (R87). -/
@[simp] theorem rtRead_revTable (b : Byte) : rtRead revTable b = rev8 b := by
  simp [rtRead, revTable]

/-! ### The bit steps -/

/-- The XOR of two bits selects a constant linearly. -/
theorem xor_select (p q : Bool) (c : Word) :
    (if (p ^^ q) = true then c else 0#32) = (if p = true then c else 0#32) ^^^ (if q = true then c else 0#32) := by
  cases p <;> cases q <;> simp

/-- XOR pairs regroup. -/
theorem xor_interchange (a b c d : Word) : (a ^^^ b) ^^^ (c ^^^ d) = (a ^^^ c) ^^^ (b ^^^ d) := by
  rw [BitVec.xor_assoc, BitVec.xor_assoc, ← BitVec.xor_assoc b, BitVec.xor_comm b c, BitVec.xor_assoc c]

theorem steplsb_xor (a b : Word) : steplsb (a ^^^ b) = steplsb a ^^^ steplsb b := by
  unfold steplsb
  rw [BitVec.getLsbD_xor, BitVec.ushiftRight_xor_distrib, xor_select, xor_interchange]

theorem stepmsb_xor (a b : Word) : stepmsb (a ^^^ b) = stepmsb a ^^^ stepmsb b := by
  unfold stepmsb
  rw [BitVec.getLsbD_xor, BitVec.shiftLeft_xor_distrib, xor_select, xor_interchange]

@[simp] theorem steplsb_zero : steplsb 0#32 = 0#32 := by decide

@[simp] theorem stepmsb_zero : stepmsb 0#32 = 0#32 := by decide

/-- Reversal turns the peripheral's bit step into the reflected one (R98). -/
theorem rev32_stepmsb (x : Word) : rev32 (stepmsb x) = steplsb (rev32 x) := by
  unfold stepmsb steplsb
  rw [rev32_xor, getLsbD_rev32 x (by decide)]
  have hshift : rev32 (x <<< 1) = rev32 x >>> 1 := by
    refine BitVec.eq_of_getLsbD_eq fun i h => ?_
    rw [getLsbD_rev32 _ h, BitVec.getLsbD_ushiftRight, BitVec.getLsbD_shiftLeft]
    by_cases h31 : i = 31
    · subst h31; simp
    · rw [getLsbD_rev32 _ (by omega)]
      simp [show 31 - i < 32 by omega, show ¬(31 - i < 1) by omega, show 31 - i - 1 = 31 - (1 + i) by omega]
  rw [hshift]
  congr 1
  cases x.getLsbD (31 - 0)
  · exact rev32_zero
  · exact rev32_poly

/-- While the low bits are 0, the reflected bit step only shifts. -/
theorem iterate_steplsb_of_low_zero (n : Nat) (x : Word) (h : ∀ i, i < n → x.getLsbD i = false) :
    iterate steplsb n x = x >>> n := by
  induction n generalizing x with
  | zero => simp
  | succ n ih =>
    have h0 : steplsb x = x >>> 1 := by rw [steplsb, h 0 (by omega)]; simp
    rw [iterate_succ, h0, ih, ← BitVec.shiftRight_add, Nat.add_comm]
    intro i hi
    rw [BitVec.getLsbD_ushiftRight]
    exact h (1 + i) (by omega)

/-- The peripheral's bit step maps only 0 to 0. -/
theorem eq_zero_of_stepmsb {x : Word} (h : stepmsb x = 0#32) : x = 0#32 := by
  have hbit : ∀ i, i < 32 → (stepmsb x).getLsbD i = false := fun i _ => by rw [h]; simp
  have h31 : x.getLsbD 31 = false := by
    have h0 := hbit 0 (by decide)
    cases hx : x.getLsbD 31 with
    | false => rfl
    | true => simp [stepmsb, hx, Config.poly] at h0
  refine BitVec.eq_of_getLsbD_eq fun i hi => ?_
  by_cases hi31 : i = 31
  · subst hi31; simpa using h31
  · have hs := hbit (i + 1) (by omega)
    rw [stepmsb, h31, BitVec.getLsbD_xor, BitVec.getLsbD_shiftLeft] at hs
    simpa only [show i + 1 < 32 by omega, show ¬(i + 1 < 1) by omega, decide_true, decide_false, Bool.not_false,
      Bool.true_and, Nat.add_sub_cancel, Bool.false_eq_true, if_false, BitVec.getLsbD_zero, Bool.xor_false] using hs

/-- The peripheral's word update maps only the pair of equal values to 0. -/
theorem upd_eq_zero {s w : Word} : upd s w = 0#32 ↔ s = w := by
  have hit : ∀ (n : Nat) (x : Word), iterate stepmsb n x = 0#32 → x = 0#32 := by
    intro n
    induction n with
    | zero => exact fun x h => h
    | succ n ih => exact fun x h => eq_zero_of_stepmsb (ih _ h)
  constructor
  · intro h
    have hx := hit 32 _ h
    have := congrArg (s ^^^ ·) hx
    simpa [← BitVec.xor_assoc] using this.symm
  · rintro rfl
    unfold upd
    rw [BitVec.xor_self]
    exact iterate_fixed stepmsb_zero 32

/-! ### Words of byte sequences -/

@[simp] theorem wordsOf_nil (o : ByteOrder) : wordsOf o [] = [] := rfl

@[simp] theorem wordsOf_cons (o : ByteOrder) (b0 b1 b2 b3 : Byte) (s : List Byte) :
    wordsOf o (b0 :: b1 :: b2 :: b3 :: s) = assembleWord o b0 b1 b2 b3 :: wordsOf o s := rfl

/-- A sequence of whole words is empty or begins with one. -/
theorem fourBytes_cases {s : List Byte} (h : s.length % 4 = 0) :
    s = [] ∨ ∃ b0 b1 b2 b3 r, s = b0 :: b1 :: b2 :: b3 :: r ∧ r.length % 4 = 0 := by
  match s with
  | [] => exact .inl rfl
  | [_] => simp at h
  | [_, _] => simp at h
  | [_, _, _] => simp at h
  | b0 :: b1 :: b2 :: b3 :: r => exact .inr ⟨b0, b1, b2, b3, r, rfl, by simp at h; omega⟩

/-- Word assembly of appended whole sequences (R51). -/
theorem wordsOf_append_of_whole (o : ByteOrder) (n : Nat) :
    ∀ s t : List Byte, s.length = 4 * n → wordsOf o (s ++ t) = wordsOf o s ++ wordsOf o t := by
  induction n with
  | zero => intro s t h; simp [List.length_eq_zero_iff.mp h]
  | succ n ih =>
    intro s t h
    rcases fourBytes_cases (s := s) (by omega) with rfl | ⟨b0, b1, b2, b3, r, rfl, -⟩
    · simp at h
    · have hr : r.length = 4 * n := by simp at h; omega
      simp [ih r t hr]

/-- The number of words. -/
theorem length_wordsOf (o : ByteOrder) (n : Nat) : ∀ s : List Byte, s.length = 4 * n → (wordsOf o s).length = n := by
  induction n with
  | zero => intro s h; simp [List.length_eq_zero_iff.mp h]
  | succ n ih =>
    intro s h
    rcases fourBytes_cases (s := s) (by omega) with rfl | ⟨b0, b1, b2, b3, r, rfl, -⟩
    · simp at h
    · simp [ih r (by simp at h; omega)]

end Sys2Proof.Machine
end

