-- ==== Sys2Proof/Laws/Step.lean ====
section
/-! SUPPORT. Everything a command's issue, a host access and a step can do, said once each. -/

namespace Sys2Proof.Machine

/-! ### Commands at their issue -/

/-- What issuing ENG_INIT can lead to. -/
theorem execEngInit_cases {s t : State} (h : execEngInit s = .next t) :
    (halted s = true ∧ t = s) ∨ (halted s = false ∧ s.status.busy = true ∧ t = refuse .illegalAccess s) ∨
      (ready s ∧ t = completeCommand (buildTable (beginCommand s))) := by
  rcases atIssue_cases h with h | h | ⟨hr, h⟩
  · exact .inl h
  · exact .inr (.inl h)
  · cases h; exact .inr (.inr ⟨hr, rfl⟩)

/-- What issuing ENG_CRC32 can lead to. -/
theorem execEngCrc32_cases {s t : State} (h : execEngCrc32 s = .next t) :
    (halted s = true ∧ t = s) ∨ (halted s = false ∧ s.status.busy = true ∧ t = refuse .illegalAccess s) ∨
      (ready s ∧ s.regs.elen = none ∧ t = refuse .unsetOperand s) ∨
      (ready s ∧ ∃ l, s.regs.elen = some l ∧ t = startCrc32 l (beginCommand s)) := by
  rcases atIssue_cases h with h | h | ⟨hr, h⟩
  · exact .inl h
  · exact .inr (.inl h)
  · split at h
    · rename_i hl; cases h; exact .inr (.inr (.inl ⟨hr, hl, rfl⟩))
    · rename_i l hl; cases h; exact .inr (.inr (.inr ⟨hr, l, hl, rfl⟩))

/-- What issuing TOOL_RUN can lead to. -/
theorem execToolRun_cases {s t : State} (h : execToolRun s = .next t) :
    (halted s = true ∧ t = s) ∨ (halted s = false ∧ s.status.busy = true ∧ t = refuse .illegalAccess s) ∨
      (ready s ∧ toolOperands s = none ∧ t = refuse .unsetOperand s) ∨
      (ready s ∧ ∃ ops, toolOperands s = some ops ∧ t = startRun ops s) := by
  rcases atIssue_cases h with h | h | ⟨hr, h⟩
  · exact .inl h
  · exact .inr (.inl h)
  · split at h
    · rename_i ho; cases h; exact .inr (.inr (.inl ⟨hr, ho, rfl⟩))
    · rename_i ops ho; cases h; exact .inr (.inr (.inr ⟨hr, ops, ho, rfl⟩))

/-- The issue step of ENG_CRC32 raises a fault or starts the computation (R104). -/
theorem startCrc32_cases (l : Dword) (s : State) :
    (∃ c, startCrc32 l s = raiseEngineFault c s) ∨
      (builtTable s ≠ none ∧ l.toNat % 4 = 0 ∧ l.toNat ≤ s.params.ebufBytes ∧
        startCrc32 l s = { s with engine.acc := some Config.initValue, engine.widx := some 0#64 }) := by
  unfold startCrc32
  split
  · exact .inl ⟨_, rfl⟩
  · rename_i ht
    split
    · exact .inl ⟨_, rfl⟩
    · rename_i ha
      split
      · exact .inl ⟨_, rfl⟩
      · rename_i hb
        exact .inr ⟨ht, by simpa using ha, by simpa using hb, rfl⟩

@[simp] theorem execEngInit_eq (s : State) : exec .engInit s = execEngInit s := rfl
@[simp] theorem execEngCrc32_eq (s : State) : exec .engCrc32 s = execEngCrc32 s := rfl
@[simp] theorem execToolRun_eq (s : State) : exec .toolRun s = execToolRun s := rfl

/-- A halted block ignores every command. -/
theorem exec_halted (i : Instr) {s : State} (h : halted s = true) : exec i s = .next s := by
  cases i <;> simp only [execEngInit_eq, execEngCrc32_eq, execToolRun_eq] <;> exact atIssue_halted _ h

/-- A busy block refuses every command. -/
theorem exec_busy (i : Instr) {s : State} (h : halted s = false) (hb : s.status.busy = true) :
    exec i s = .next (refuse .illegalAccess s) := by
  cases i <;> simp only [execEngInit_eq, execEngCrc32_eq, execToolRun_eq] <;> exact atIssue_busy _ h hb

/-- A command's issue always answers a next state. -/
theorem exec_answers (i : Instr) (s : State) : ∃ t, exec i s = .next t := by
  cases i with
  | engInit =>
    simp only [execEngInit_eq, execEngInit, atIssue]
    split
    · exact ⟨_, rfl⟩
    · split <;> exact ⟨_, rfl⟩
  | engCrc32 =>
    simp only [execEngCrc32_eq, execEngCrc32, atIssue]
    split
    · exact ⟨_, rfl⟩
    · split
      · exact ⟨_, rfl⟩
      · split <;> exact ⟨_, rfl⟩
  | toolRun =>
    simp only [execToolRun_eq, execToolRun, atIssue]
    split
    · exact ⟨_, rfl⟩
    · split
      · exact ⟨_, rfl⟩
      · split <;> exact ⟨_, rfl⟩

/-- A write of CMD always answers a next state. -/
theorem commandWrite_answers (w : Word) (s : State) : ∃ t, commandWrite w s = .next t := by
  unfold commandWrite
  split
  · exact exec_answers _ s
  · unfold atIssue
    split
    · exact ⟨_, rfl⟩
    · split <;> exact ⟨_, rfl⟩

/-! ### Host accesses -/

/-- What a write of a register other than CMD can do: without effect on a halted block, refused, or one operand
register of a ready block takes the value. -/
inductive WriteCase (reg : Nat) (s : State) : State → Prop
  | ignored (h : halted s = true) : WriteCase reg s s
  | refused (h : halted s = false) : WriteCase reg s (refuse .illegalAccess s)
  | elen (h : ready s) (hr : reg = 3) (v : Dword) : WriteCase reg s { s with regs.elen := some v }
  | padReq (h : ready s) (hr : reg = 4) (b : Bool) : WriteCase reg s { s with regs.padReq := some b }
  | padTarget (h : ready s) (hr : reg = 5) (v : Dword) : WriteCase reg s { s with regs.padTarget := some v }
  | padFill (h : ready s) (hr : reg = 6) (v : Dword) : WriteCase reg s { s with regs.padFill := some v }

/-- A register number names the register it is the number of. -/
theorem Reg.eq_number {n : Nat} {r : Reg} (h : Reg.ofNumber? n = some r) : n = r.number := by
  unfold Reg.ofNumber? at h
  split at h <;> cases h <;> rfl

@[simp] theorem Reg.ofNumber_number (r : Reg) : Reg.ofNumber? r.number = some r := by cases r <;> rfl

theorem hostWrite_case (reg : Nat) (v : Dword) (s : State) : WriteCase reg s (hostWrite reg v s) := by
  unfold hostWrite
  split
  · rename_i hh; exact .ignored hh
  · rename_i hh
    have hh : halted s = false := by simpa using hh
    split
    · exact .refused hh
    · rename_i hb
      have hr : ready s := ⟨hh, by simpa using hb⟩
      split
      · rename_i t ht
        unfold writeRegister at ht
        split at ht
        · rename_i he; cases ht; exact .elen hr (Reg.eq_number he) v
        · rename_i he
          split at ht
          · cases ht; exact .padReq hr (Reg.eq_number he) false
          · split at ht
            · cases ht; exact .padReq hr (Reg.eq_number he) true
            · cases ht
        · rename_i he; cases ht; exact .padTarget hr (Reg.eq_number he) v
        · rename_i he; cases ht; exact .padFill hr (Reg.eq_number he) v
        all_goals cases ht
      · exact .refused hh

/-- What a read can do: the host gets a value, or nothing and, on a block that is not halted, a refusal. -/
inductive ReadCase (s : State) : State → Prop
  | value (v : Dword) : ReadCase s { s with host.readValue := some v }
  | ignored (h : halted s = true) : ReadCase s { s with host.readValue := none }
  | refused (h : halted s = false) : ReadCase s (refuse .illegalAccess { s with host.readValue := none })

theorem hostRead_case (reg : Nat) (s : State) : ReadCase s (hostRead reg s) := by
  unfold hostRead
  split
  · exact .value _
  · unfold refuseAccess
    split
    · rename_i h; exact .ignored h
    · rename_i h; exact .refused (Bool.eq_false_iff.mpr h)

/-- What a write of EBUF can do. -/
inductive EbufCase (offset : Nat) (b : Byte) (s : State) : State → Prop
  | ignored (h : halted s = true) : EbufCase offset b s s
  | refused (h : halted s = false) : EbufCase offset b s (refuse .illegalAccess s)
  | written (h : ready s) (ho : offset < s.params.ebufBytes) :
      EbufCase offset b s { s with ebuf := s.ebuf.write offset b }

theorem hostEbufWrite_case (offset : Nat) (b : Byte) (s : State) :
    EbufCase offset b s (hostEbufWrite offset b s) := by
  unfold hostEbufWrite
  split
  · rename_i hh; exact .ignored hh
  · rename_i hh
    have hh : halted s = false := by simpa using hh
    split
    · exact .refused hh
    · rename_i hb
      split
      · exact .refused hh
      · rename_i ho
        exact .written ⟨hh, by simpa using hb⟩ (by omega)

/-! ### Steps -/

/-- The state with the host's next move taken from its script. -/
def withScript (s : State) (rest : List HostMove) : State := { s with host.script := rest }

/-- Everything a step can do. -/
inductive StepCase (s t : State) : Prop
  | block (hq : hostQuiet s) (h : blockStep s = .next t)
  | idle (rest : List HostMove) (hs : s.host.script = .idle :: rest) (h : blockStep (withScript s rest) = .next t)
  | waited (rest : List HostMove) (hs : s.host.script = .wait :: rest) (hb : s.status.busy = false)
      (h : t = withScript s rest)
  | command (v : Dword) (rest : List HostMove) (hs : s.host.script = .wr 0 v :: rest) (i : Instr)
      (hi : decode (v.setWidth 32) = .ok i) (h : exec i (withScript s rest) = .next t)
  | illegal (v : Dword) (rest : List HostMove) (hs : s.host.script = .wr 0 v :: rest)
      (h : atIssue (withScript s rest) (fun s => .next (refuse .illegalCommand s)) = .next t)
  | write (reg : Nat) (v : Dword) (rest : List HostMove) (hs : s.host.script = .wr reg v :: rest) (hr : reg ≠ 0)
      (h : t = hostWrite reg v (withScript s rest))
  | read (reg : Nat) (rest : List HostMove) (hs : s.host.script = .rd reg :: rest)
      (h : t = hostRead reg (withScript s rest))
  | ebuf (off : Nat) (b : Byte) (rest : List HostMove) (hs : s.host.script = .ebufWr off b :: rest)
      (h : t = hostEbufWrite off b (withScript s rest))
  | reset (rest : List HostMove) (hs : s.host.script = .reset :: rest) (h : t = resetBlock (withScript s rest))

theorem step_case {s t : State} (h : step s = .next t) : StepCase s t := by
  unfold step nextMove at h
  split at h
  · rename_i hs; exact .block (.inl hs) h
  · rename_i m rest hs
    split at h
    · rename_i hw
      have hm : m = .wait := by
        unfold stillWaiting at hw
        rw [hs] at hw
        cases m <;> simp at hw ⊢
      subst hm
      exact .block (.inr ⟨rest, hs⟩) h
    · rename_i hw
      cases m with
      | wr reg v =>
        simp only [hostMove] at h
        split at h
        · rename_i hr
          subst hr
          unfold commandWrite at h
          split at h
          · rename_i i hi; exact .command v rest hs i hi h
          · exact .illegal v rest hs h
        · rename_i hr; cases h; exact .write reg v rest hs hr rfl
      | rd reg => cases h; exact .read reg rest hs rfl
      | ebufWr off b => cases h; exact .ebuf off b rest hs rfl
      | wait =>
        cases h
        refine .waited rest hs ?_ rfl
        simpa [stillWaiting, hs] using hw
      | idle => exact .idle rest hs h
      | reset => cases h; exact .reset rest hs rfl

/-- A step with a quiet host while the block is busy is the block's step. -/
theorem step_quiet {s : State} (hq : hostQuiet s) (hb : s.status.busy = true) : step s = blockStep s := by
  unfold step nextMove
  rcases hq with hs | ⟨rest, hs⟩
  · rw [hs]
  · rw [hs]; simp [stillWaiting, hs, hb]

/-- Where the block does not fault, nor does the machine. -/
theorem step_answers {s : State} (h : ∀ r, ∃ t, blockStep (withScript s r) = .next t) : ∃ t, step s = .next t := by
  have h0 : ∃ t, blockStep s = .next t := h s.host.script
  unfold step nextMove
  split
  · exact h0
  · rename_i m rest hs
    split
    · exact h0
    · cases m with
      | wr reg v =>
        simp only [hostMove]
        split
        · exact commandWrite_answers _ _
        · exact ⟨_, rfl⟩
      | idle => exact h rest
      | _ => exact ⟨_, rfl⟩

end Sys2Proof.Machine
end

