-- ==== Sys2Proof/Laws/Invariant.lean ====
section
/-! SUPPORT. The parts of the invariant's proof that many steps share: the host's moves, a refusal and a failure exit
keep it. -/

namespace Sys2Proof.Machine

/-- Not halted means neither bit set. -/
theorem bits_of_not_halted {s : State} (h : halted s = false) :
    s.status.fault = false ∧ s.status.refused = false := by
  simpa [halted] using h

/-- A latched descriptor with padding is the three registers of R38. -/
theorem latchedPadding_some {s : State} {target fill : Int} :
    latchedPadding s = .ok (some (target, fill)) ↔
      s.tool.runPadReq = some true ∧ s.tool.runTarget = some target ∧ s.tool.runFill = some fill := by
  constructor
  · intro h
    unfold latchedPadding at h
    split at h
    · cases h
    · cases h
    · rename_i h1
      split at h
      · rename_i h2 h3; cases h; exact ⟨h1, h2, h3⟩
      · cases h
      · cases h
  · rintro ⟨h1, h2, h3⟩
    simp only [latchedPadding, h1, h2, h3]

/-- A latched descriptor without padding. -/
theorem latchedPadding_none {s : State} (h : s.tool.runPadReq = some false) : latchedPadding s = .ok none := by
  simp only [latchedPadding, h]

/-- The invariant does not look at the host's moves and answers. -/
theorem Coherent.withHost {s : State} (h : Coherent s) (hs : HostSide) (hf : hs.file = s.host.file) :
    Coherent { s with host := hs } := by
  refine ⟨h.ebuf, h.table, h.status, h.padbuf, h.idle, fun i hi => h.engine i hi, fun hb hw => ?_⟩
  have := h.run hb hw
  unfold runInv at this ⊢
  simp only [hf]
  exact this

/-- A refusal keeps the invariant. -/
theorem Coherent.refuse {s : State} (h : Coherent s) (hh : halted s = false) (c : RefusalCause) :
    Coherent (Machine.refuse c s) := by
  refine ⟨h.ebuf, h.table, ?_, h.padbuf, h.idle, h.engine, h.run⟩
  have := h.status
  simp only [statusInv, refuse_status, (bits_of_not_halted hh).1]
  exact ⟨⟨c, rfl⟩, this.2.1, this.2.2⟩

/-- A failure exit of a run in progress, on a state that differs from `s` only in the host's side and the registers,
keeps the invariant. -/
theorem Coherent.failExit {s u : State} (h : Coherent s) {q : SeqState} (hr : runsAt q s) (c : RunFailure)
    (hp : u.params = s.params) (hs : u.status = s.status) (he : u.ebuf = s.ebuf) (ht : u.engine.rt = s.engine.rt)
    (hw : u.engine.widx = none) : Coherent (Machine.failExit c u) := by
  obtain ⟨hf, hre⟩ := bits_of_not_halted hr.1
  refine ⟨?_, ?_, ?_, rfl, fun _ => ⟨hw, ⟨rfl, rfl, rfl⟩, c, rfl⟩, fun i hi => ?_, fun hb => ?_⟩
  · simpa [ebufInv, hp, he] using h.ebuf
  · simpa [tableInv, hs, ht] using h.table
  · simp only [statusInv, failExit_status, hs, hf, hre]
    exact ⟨.inr ⟨c, rfl⟩, by simp, by cases c <;> simp [category]⟩
  · simp [hw] at hi
  · simp at hb

end Sys2Proof.Machine
end

