-- ==== Sys2Proof/Laws/PerInstr.lean ====
section
/-! SUPPORT. Statements about every instruction as syntax, one lemma per constructor of `Instr`. -/

namespace Sys2Proof.Laws

/-- The fields of the command word of `i`, as the encoding tables give them (spec/30_encoding.md R67 to R69). -/
def CommandWord.Statement (i : Instr) : Prop :=
  opcField (encode i) = i.opc ∧ rsvdField (encode i) = 0#24 ∧ wellFormedCommandWord (encode i) = true ∧
    i.wellFormed = true

theorem CommandWord.engInit : CommandWord.Statement .engInit := by unfold CommandWord.Statement; decide

theorem CommandWord.engCrc32 : CommandWord.Statement .engCrc32 := by unfold CommandWord.Statement; decide

theorem CommandWord.toolRun : CommandWord.Statement .toolRun := by unfold CommandWord.Statement; decide

end Sys2Proof.Laws
end

