-- ==== Sys2Proof/Laws/Run.lean ====
section
/-! SUPPORT. Runs of several steps: the host's `Core.run` of the machine, one step at a time. -/

namespace Sys2Proof.Machine

@[simp] theorem run_zero (s : State) : core.run 0 s = .next s := rfl

/-- A run begins with a step. -/
theorem run_next {s t : State} (h : step s = .next t) (k : Nat) : core.run (k + 1) s = core.run k t := by
  have h' : core.step s = .next t := h
  simp only [Host.Core.run, h']

/-- A run that reaches a state begins with a step that answers. -/
theorem run_succ_cases {s u : State} {k : Nat} (h : core.run (k + 1) s = .next u) :
    ∃ t, step s = .next t ∧ core.run k t = .next u := by
  cases hs : step s with
  | next t => exact ⟨t, rfl, by rw [← run_next hs]; exact h⟩
  | fault r =>
    have h' : core.step s = .fault r := hs
    simp only [Host.Core.run, h'] at h
    cases h
  | refused r =>
    have h' : core.step s = .refused r := hs
    simp only [Host.Core.run, h'] at h
    cases h

/-- What every step keeps, every run keeps. -/
theorem run_induction {P : State → Prop} (hstep : ∀ s t, P s → step s = .next t → P t) {k : Nat} {s u : State}
    (hs : P s) (h : core.run k s = .next u) : P u := by
  induction k generalizing s with
  | zero => cases h; exact hs
  | succ k ih =>
    obtain ⟨t, ht, hu⟩ := run_succ_cases h
    exact ih (hstep s t hs ht) hu

/-- While the host leaves a busy block alone, a run begins with the block's own step. -/
theorem run_quiet {s t : State} {k : Nat} (hq : hostQuiet s) (hb : s.status.busy = true)
    (h : blockStep s = .next t) : core.run (k + 1) s = core.run k t :=
  run_next ((step_quiet hq hb).trans h) k

end Sys2Proof.Machine
end

