-- ==== Sys2Proof/Tests/Slice0.lean ====
section
/-! SUPPORT. The model's own tests: encodings, well-formedness, the spec's vectors one step at a time, and for every
statement with hypotheses a witness that meets them. Expected values come from spec/95_test_vectors.md and the rules
named. -/

namespace Sys2Proof.Tests

open Sys2Proof Sys2Proof.Machine

set_option maxRecDepth 4000
set_option Elab.async false

/-! ### Encodings: words written out from spec/30_encoding.md R68 and R69, RSVD then OPC -/

theorem test_word_engInit : decode (0b000000000000000000000000#24 ++ 0b00000001#8) = .ok .engInit := by decide

theorem test_word_engCrc32 : decode (0b000000000000000000000000#24 ++ 0b00000010#8) = .ok .engCrc32 := by decide

theorem test_word_toolRun : decode (0b000000000000000000000000#24 ++ 0b00000011#8) = .ok .toolRun := by decide

/-- The lowest and the highest bit of RSVD each make a word illegal. -/
theorem test_word_reservedBits :
    decode (0b000000000000000000000001#24 ++ 0b00000001#8) = .error .reservedBits ∧
    decode (0b100000000000000000000000#24 ++ 0b00000001#8) = .error .reservedBits := by decide

theorem test_word_unknownOpcode :
    decode (0b000000000000000000000000#24 ++ 0b00000000#8) = .error .unknownOpcode ∧
    decode (0b000000000000000000000000#24 ++ 0b00000100#8) = .error .unknownOpcode := by decide

theorem test_tableWord :
    decodeTableWord 32 1 = some .engInit ∧ decodeTableWord 32 2 = some .engCrc32 ∧
    decodeTableWord 32 3 = some .toolRun ∧ decodeTableWord 32 0x102 = none ∧
    decodeTableWord 64 0x100000001 = none := by decide

/-- R80: `ebuf.ld 4, [a, b]` is two byte writes, `run.pad` writes IR4, IR5 and IR6 and issues TOOL_RUN. -/
theorem test_assemble :
    assemble [.ebufLd 4 [0x0A#8, 0x0B#8], .runPad (-4) 0] =
      [.ebufWr 4 0x0A#8, .ebufWr 5 0x0B#8, .wr 4 1#64, .wr 5 0xFFFFFFFFFFFFFFFC#64, .wr 6 0#64, .wr 0 3#64,
        .wait] := by decide

/-! ### Well-formedness: an ill-formed term for each check -/

/-- The parameters of spec/95_test_vectors.md sections 4 and 5. -/
def params : Params := ⟨.le, 16, none⟩

theorem test_illFormed_wordReserved : wellFormedCommandWord 0x00000102#32 = false := by decide
theorem test_illFormed_wordOpcode : wellFormedCommandWord 0x00000004#32 = false := by decide
theorem test_illFormed_writeReadOnly : wellFormedWrite .status 0#64 = false := by decide
theorem test_illFormed_writePadReq : wellFormedWrite .padReq 2#64 = false := by decide
theorem test_illFormed_writeCmdHigh : wellFormedWrite .cmd 0x100000001#64 = false := by decide
theorem test_illFormed_writeReserved : (HostMove.wr 11 0#64).wellFormed params = false := by decide
theorem test_illFormed_readReserved : (HostMove.rd 11).wellFormed params = false := by decide
theorem test_illFormed_ebufOffset : (HostMove.ebufWr 16 0#8).wellFormed params = false := by decide
theorem test_illFormed_valueTooWide : (AsmLine.crc32 (2 ^ 64)).wellFormed params = false := by decide
theorem test_illFormed_padTooNegative : (AsmLine.runPad (-(2 ^ 63) - 1) 0).wellFormed params = false := by decide
theorem test_illFormed_ebufLd : (AsmLine.ebufLd 15 [0#8, 0#8]).wellFormed params = false := by decide

/-! ### The datapath -/

/-- T-DP-1, T-DP-2, T-DP-3, T-DP-4, T-DP-5, one row each. -/
theorem test_datapath_functions :
    rtRead revTable 0x12#8 = 0x48#8 ∧ ptab 0x01#8 = 0x77073096#32 ∧
    revw revTable 0x12345678#32 = 0x1E6A2C48#32 ∧ crcRound 0x12345678#32 = 0x5ECCCD58#32 ∧
    stepmsb 0xFFFFFFFF#32 = 0xFB3EE249#32 := by decide +kernel

/-- T-DP-6, word 0 of 0x01..0x08, LE. -/
theorem test_wordstep : wordstep revTable 0xFFFFFFFF#32 0x04030201#32 = 0xF2E7D5B8#32 := by decide +kernel

/-- T-ENG-1r in both byte orders. -/
theorem test_crc32_orders :
    crc32 .le [1#8, 2#8, 3#8, 4#8, 5#8, 6#8, 7#8, 8#8] = 0xA3141BDA#32 ∧
    crc32 .be [1#8, 2#8, 3#8, 4#8, 5#8, 6#8, 7#8, 8#8] = 0x140B8DD8#32 := by decide +kernel

/-- T-TOOL-1: the layout of the appended CRC. -/
theorem test_bytes32 :
    bytes32 .le 0x6904BB59#32 = [0x59#8, 0xBB#8, 0x04#8, 0x69#8] ∧
    bytes32 .be 0x6904BB59#32 = [0x69#8, 0x04#8, 0xBB#8, 0x59#8] := by decide

/-! ### Small states -/

/-- After reset, EBUF_BYTES = 16, no file. -/
def base : State := State.launch params (HostSide.launch none)

/-- "After init" of spec/95_test_vectors.md section 4, as data. -/
def built : State :=
  { base with engine.rt := some revTable, status.tblValid := true, status.done := true }

/-- Halted by a refusal. -/
def stopped : State := { base with status.refused := true, status.cause := .refusal .illegalAccess }

/-- `s` with the next moves of the host. -/
def playing (moves : List HostMove) (s : State) : State := { s with host.script := moves }

/-- EBUF[0..4) = [0x78, 0x56, 0x34, 0x12] (T-ENG-C3). -/
def word0 : Memory := [(0, 0x78#8), (1, 0x56#8), (2, 0x34#8), (3, 0x12#8)]

/-- An ENG_CRC32 of length 4 in progress at word index `i`. -/
def computing (i : Dword) (acc : Word) : State :=
  { built with
    status.busy := true, status.done := false, regs.elen := some 4#64, ebuf := word0
    engine.acc := some acc, engine.widx := some i }

/-- A host that owns `file` and lets every call of the next run succeed. -/
def granting (file : List Byte) : HostSide :=
  { HostSide.launch (some file) with
    openReadAnswers := [.ok], readAnswers := [.all], openAppendAnswers := [.ok], padWriteAnswers := [.all]
    crcWriteAnswers := [.all] }

/-- Ready for TOOL_RUN on `file`, with the padding operands of T-TOOL-4, target 12 and fill 0. -/
def operands (padReq : Bool) (file : List Byte) : State :=
  { base with
    host := granting file
    regs.padReq := some padReq, regs.padTarget := some 12#64, regs.padFill := some 0#64 }

/-- A run on `file` in progress in state `q`, with the latched descriptor (target 12, fill 0) when `padReq`. -/
def running (q : SeqState) (padReq : Bool) (img : Option (List Byte)) (crc : Word) (file : List Byte) : State :=
  { base with
    host := granting file
    status.busy := true, status.tblValid := true
    engine.rt := some revTable
    regs.seqState := q, regs.imgSize := some (BitVec.ofNat 64 file.length), regs.toolCrc := some crc
    tool.runPadReq := some padReq, tool.runTarget := some 12, tool.runFill := some 0, tool.rdOpen := true
    tool.apOpen := q == .pad || q == .writeCrc || q == .done, tool.img := img }

/-- An 8-byte image of zeros (scenario A). -/
def zeros : List Byte := fillBytes 8 0#8

/-- The field of a next state. -/
def ofNext {α : Type} (f : State → α) (r : Result) : Option α :=
  match r with
  | .next t => some (f t)
  | .fault _ => none
  | .refused _ => none

/-! ### The spec's vectors, one step each -/

/-- T-ENG-C1: STATUS after `eng.init`. -/
theorem test_engInit_status : ofNext (·.status.word) (step (base.withFetchWord 32 1)) = some 0x00000012#32 := by
  decide +kernel

/-- R103: `eng.init` leaves RT[0xA5] = 0xA5 and RT[0x12] = 0x48. -/
theorem test_engInit_table :
    ofNext (fun t => t.engine.rt.map fun rt => (rtRead rt 0xA5#8, rtRead rt 0x12#8)) (exec .engInit base) =
      some (some (0xA5#8, 0x48#8)) := by decide +kernel

/-- T-ENG-C7, C8, C10: the faults of ELEN 3 and 20 and the refusal of an ELEN never written. -/
theorem test_engCrc32_status :
    ofNext (·.status.word) (exec .engCrc32 { built with regs.elen := some 3#64 }) = some 0x00001114#32 ∧
    ofNext (·.status.word) (exec .engCrc32 { built with regs.elen := some 20#64 }) = some 0x00001214#32 ∧
    ofNext (·.status.word) (exec .engCrc32 built) = some 0x0000221A#32 := by decide +kernel

/-- R104's example: after the word step ACC = 0xD45151FB, and the final step makes RESULT 0xDF8A8A2B. -/
theorem test_engCrc32_steps :
    ofNext (fun t => (t.engine.acc, t.engine.widx)) (step (computing 0#64 0xFFFFFFFF#32)) =
      some (some 0xD45151FB#32, some 1#64) ∧
    ofNext (fun t => (t.regs.result, t.status.word)) (step (computing 1#64 0xD45151FB#32)) =
      some (some 0xDF8A8A2B#32, 0x00000012#32) := by decide +kernel

/-- T-TOOL-1, COMPUTE_CRC: TOOL_CRC = 0x6904BB59 and IMG is released. -/
theorem test_toolRun_computes :
    ofNext (fun t => (t.regs.toolCrc, t.tool.img)) (step (running .computeCrc false (some zeros) 0#32 zeros)) =
      some (some 0x6904BB59#32, none) := by decide +kernel

/-- R117 with the codes of spec/95_test_vectors.md section 5: N = 7 without padding is UNALIGNED_IMAGE_SIZE, and target
12 with N = 12 is INVALID_PADDING_CONFIG, because 12 < N + 4. -/
theorem test_toolRun_rejects :
    ofNext (·.status.word) (step (running .sizeValidate false none 0#32 (fillBytes 7 0#8))) =
      some 0x00040212#32 ∧
    ofNext (·.status.word) (step (running .sizeValidate true none 0#32 (fillBytes 12 0#8))) =
      some 0x00040112#32 := by decide +kernel

/-- T-ENG-C12 to C15: the refused accesses of a block after init. -/
theorem test_refusedAccesses :
    (hostWrite 1 0#64 built).status.word = 0x0000211A#32 ∧ (hostWrite 4 2#64 built).status.word = 0x0000211A#32 ∧
    (hostRead 2 built).status.word = 0x0000211A#32 ∧ (hostEbufWrite 16 0#8 built).status.word = 0x0000211A#32 := by
  decide +kernel

/-- R170, R172: a reset in a run leaves FILE and gives STATUS 0. -/
theorem test_reset :
    ofNext (·.status.word) (step (playing [.reset] (running .pad true none 0#32 zeros))) = some 0#32 ∧
    ofNext (·.regs.seqState) (step (playing [.reset] (running .pad true none 0#32 zeros))) = some .idle ∧
    ofNext (·.host.file) (step (playing [.reset] (running .pad true none 0#32 zeros))) = some (some zeros) := by
  decide +kernel

/-- The three command words each run as the first step after reset, whatever the open parameters are. -/
theorem test_firstStep :
    ofNext (·.status.word) (step (State.reset.withFetchWord 32 1)) = some 0x00000012#32 ∧
    ofNext (·.status.word) (step (State.reset.withFetchWord 32 2)) = some 0x00002208#32 ∧
    ofNext (·.status.word) (step (State.reset.withFetchWord 32 3)) = some 0x00002208#32 := by decide +kernel

/-! ### Witnesses: for every statement with hypotheses, and for each of its clauses, a state and operands that meet
them -/

theorem base_ready : ready base := ⟨rfl, rfl⟩
theorem built_ready : ready built := ⟨rfl, rfl⟩
theorem built_table : tableBuilt built := ⟨rfl, rfl⟩
theorem stopped_halted : halted stopped = true := rfl

theorem running_runsAt (q : SeqState) (p : Bool) (img : Option (List Byte)) (crc : Word) (file : List Byte) :
    runsAt q (running q p img crc file) := ⟨rfl, rfl, rfl, rfl⟩

theorem computing_computesAt (i : Dword) (acc : Word) : computesAt 4#64 i (computing i acc) :=
  ⟨rfl, rfl, rfl, rfl⟩

/-- The invariant of a block that is ready and has run nothing. -/
theorem operands_coherent (p : Bool) (file : List Byte) : Coherent (operands p file) := by
  refine ⟨⟨List.Pairwise.nil, ?_⟩, rfl, ⟨.inl rfl, ?_, ?_⟩, rfl, fun _ => ⟨rfl, ⟨rfl, rfl, rfl⟩, rfl⟩, ?_, ?_⟩
  · intro c hc; cases hc
  · intro h; cases h
  · intro h; cases h
  · intro i hi; cases hi
  · intro hb; cases hb

/-- What the states `running` share of the invariant. -/
theorem running_coherent {q : SeqState} {p : Bool} {img : Option (List Byte)} {crc : Word} {file : List Byte}
    (h : runInv (running q p img crc file)) : Coherent (running q p img crc file) := by
  refine ⟨⟨List.Pairwise.nil, ?_⟩, rfl, ⟨.inl rfl, ?_, ?_⟩, rfl, ?_, ?_, fun _ _ => h⟩
  · intro c hc; cases hc
  · intro h; cases h
  · intro h; cases h
  · intro hb; cases hb
  · intro i hi; cases hi

/-- The image of zeros passed SIZE_VALIDATE with target 12 and fill 0. -/
theorem zeros_validated (q : SeqState) (img : Option (List Byte)) (crc : Word) :
    validated (running q true img crc zeros) zeros := by
  refine ⟨rfl, rfl, rfl, ?_⟩
  intro target fill _ ht hf
  cases ht
  cases hf
  decide

theorem running_latched (q : SeqState) (img : Option (List Byte)) (crc : Word) (file : List Byte) :
    latchedInv (running q true img crc file) := .inr ⟨rfl, rfl, rfl⟩

theorem computeCrc_coherent : Coherent (running .computeCrc true (some zeros) 0#32 zeros) :=
  running_coherent ⟨rfl, running_latched _ _ _ _, rfl, rfl, zeros, rfl, rfl, zeros_validated _ _ _⟩

theorem pad_coherent : Coherent (running .pad true none 0#32 zeros) :=
  running_coherent ⟨rfl, running_latched _ _ _ _, rfl, rfl, rfl, rfl, zeros, rfl, zeros_validated _ _ _⟩

theorem witness_DecodeInvertsEncode : ∃ i : Instr, i.wellFormed = true := ⟨.toolRun, rfl⟩

theorem witness_EveryOtherCommandWordIsIllegal : ∃ (w : Word) (s : State), (∀ i, w ≠ encode i) ∧ ready s :=
  ⟨0x00000004#32, base, fun i => by cases i <;> decide, base_ready⟩

theorem witness_StepIssuesTheDecodedCommand :
    ∃ (s : State) (v : Dword) (rest : List HostMove) (i : Instr),
      s.host.script = .wr 0 v :: rest ∧ decode (v.setWidth 32) = .ok i :=
  ⟨playing [.wr 0 3#64] base, 3#64, [], .toolRun, rfl, by decide⟩

theorem witness_StepMakesTheHostsMove :
    (∃ (s : State) (reg : Nat) (v : Dword), reg ≠ 0 ∧ s.host.script = .wr reg v :: []) ∧
    (∃ (s : State) (reg : Nat), s.host.script = .rd reg :: []) ∧
    (∃ (s : State) (off : Nat) (b : Byte), s.host.script = .ebufWr off b :: []) ∧
    (∃ s : State, s.host.script = .wait :: [] ∧ s.status.busy = false) ∧
    (∃ s : State, s.host.script = .idle :: []) ∧ (∃ s : State, s.host.script = .reset :: []) ∧
    (∃ (s : State) (v : Dword) (e : DecodeError),
      s.host.script = .wr 0 v :: [] ∧ decode (v.setWidth 32) = .error e) :=
  ⟨⟨playing [.wr 1 0#64] base, 1, 0#64, by decide, rfl⟩, ⟨playing [.rd 11] base, 11, rfl⟩,
    ⟨playing [.ebufWr 16 0#8] base, 16, 0#8, rfl⟩, ⟨playing [.wait] base, rfl, rfl⟩, ⟨playing [.idle] base, rfl⟩,
    ⟨playing [.reset] base, rfl⟩, ⟨playing [.wr 0 4#64] base, 4#64, .unknownOpcode, rfl, by decide⟩⟩

theorem witness_StepLetsTheBlockWork :
    (∃ s : State, s.host.script = []) ∧
    (∃ (s : State) (rest : List HostMove), s.host.script = .wait :: rest ∧ s.status.busy = true) ∧
    (∃ s : State, s.status.busy = false) ∧ ∃ s : State, halted s = true :=
  ⟨⟨base, rfl⟩, ⟨playing [.wait] (computing 0#64 0#32), [], rfl, rfl⟩, ⟨base, rfl⟩, ⟨stopped, stopped_halted⟩⟩

theorem witness_CommandIssueFollowsItsPseudocode :
    (∃ s : State, halted s = true) ∧ (∃ s : State, halted s = false ∧ s.status.busy = true) ∧
    (∃ (w : Word) (s : State), ready s ∧ w.extractLsb' 8 24 ≠ 0#24) ∧
    (∃ w : Word, w.extractLsb' 8 24 = 0#24 ∧ w.extractLsb' 0 8 = 0x01#8) ∧
    (∃ w : Word, w.extractLsb' 8 24 = 0#24 ∧ w.extractLsb' 0 8 = 0x02#8) ∧
    (∃ w : Word, w.extractLsb' 8 24 = 0#24 ∧ w.extractLsb' 0 8 = 0x03#8) ∧
    (∃ (w : Word) (s : State), ready s ∧ w.extractLsb' 8 24 = 0#24 ∧ w.extractLsb' 0 8 ≠ 0x01#8 ∧
      w.extractLsb' 0 8 ≠ 0x02#8 ∧ w.extractLsb' 0 8 ≠ 0x03#8) ∧
    (∃ s : State, ready s ∧ s.regs.elen = none) ∧ (∃ s : State, ready s ∧ s.regs.padReq = none) ∧
    ∃ s : State, ready s ∧ s.regs.padReq = some true ∧ s.regs.padTarget = none :=
  ⟨⟨stopped, rfl⟩, ⟨computing 0#64 0#32, rfl, rfl⟩, ⟨0x00000101#32, base, base_ready, by decide⟩,
    ⟨1#32, by decide⟩, ⟨2#32, by decide⟩, ⟨3#32, by decide⟩, ⟨4#32, base, base_ready, by decide⟩,
    ⟨base, base_ready, rfl⟩, ⟨base, base_ready, rfl⟩,
    ⟨{ base with regs.padReq := some true }, ⟨rfl, rfl⟩, rfl, rfl⟩⟩

theorem witness_RefusedAccessesChangeNothingElse :
    (∃ (s : State) (reg : Nat), halted s = false ∧ 11 ≤ reg) ∧
    (∃ r : Reg, r ∈ [Reg.status, .result, .toolCrc, .padLen, .imgSize, .seqState]) ∧
    (∃ v : Dword, v ≠ 0#64 ∧ v ≠ 1#64) ∧ (∃ s : State, halted s = false ∧ s.status.busy = true) ∧
    (∃ (s : State) (r : Reg), halted s = false ∧ regValue s r = none) ∧
    (∃ (s : State) (off : Nat), halted s = false ∧ s.params.ebufBytes ≤ off) ∧
    ∃ (s : State) (r : Reg) (v : Dword), halted s = true ∧ regValue s r = some v :=
  ⟨⟨base, 11, rfl, by decide⟩, ⟨.seqState, by decide⟩, ⟨2#64, by decide⟩, ⟨computing 0#64 0#32, rfl, rfl⟩,
    ⟨base, .result, rfl, rfl⟩, ⟨base, 16, rfl, by decide⟩, ⟨stopped, .cmd, 0#64, rfl, rfl⟩⟩

theorem witness_AcceptedWritesStoreTheirValue : ∃ s : State, ready s := ⟨base, base_ready⟩

theorem witness_ReadsReturnTheRegister :
    (∃ (s : State) (v : Word), s.regs.result = some v) ∧ (∃ (s : State) (v : Dword), s.regs.elen = some v) ∧
    (∃ s : State, s.regs.padReq = some false) ∧ (∃ s : State, s.regs.padReq = some true) ∧
    (∃ (s : State) (v : Dword), s.regs.padTarget = some v) ∧ (∃ (s : State) (v : Dword), s.regs.padFill = some v) ∧
    (∃ (s : State) (v : Word), s.regs.toolCrc = some v) ∧ (∃ (s : State) (v : Dword), s.regs.padLen = some v) ∧
    ∃ (s : State) (v : Dword), s.regs.imgSize = some v :=
  ⟨⟨{ base with regs.result := some 5#32 }, 5#32, rfl⟩, ⟨computing 0#64 0#32, 4#64, rfl⟩,
    ⟨operands false [], rfl⟩, ⟨operands true [], rfl⟩, ⟨operands true [], 12#64, rfl⟩,
    ⟨operands true [], 0#64, rfl⟩, ⟨running .pad true none 7#32 zeros, 7#32, rfl⟩,
    ⟨{ base with regs.padLen := some 4#64 }, 4#64, rfl⟩, ⟨running .pad true none 7#32 zeros, 8#64, rfl⟩⟩

theorem witness_EbufWriteChangesOneByte :
    ∃ (s : State) (off i : Nat), ready s ∧ off < s.params.ebufBytes ∧ s.ebuf.wf ∧ i ≠ off :=
  ⟨{ built with ebuf := word0 }, 15, 16, ⟨rfl, rfl⟩, by decide, by decide, by decide⟩

theorem witness_WellFormedMovesAreNotRefused :
    (∃ (s : State) (m : HostMove), ready s ∧ m.wellFormed s.params = true ∧
      (∀ reg, m = .rd reg → (readRegister s reg).isSome = true) ∧ ∀ v, m ≠ .wr 0 v) ∧
    ∃ (s : State) (m : HostMove), ready s ∧ m.wellFormed s.params = true ∧
      (∀ reg, m = .rd reg → (readRegister s reg).isSome = true) ∧ m = .rd 10 :=
  ⟨⟨base, .ebufWr 15 0#8, base_ready, by decide, fun _ h => (by cases h), fun _ h => (by cases h)⟩,
    ⟨base, .rd 10, base_ready, by decide, fun _ h => (by cases h; decide), rfl⟩⟩

theorem witness_ResetSetsEveryElement :
    ∃ (s : State) (rest : List HostMove), s.host.script = .reset :: rest :=
  ⟨playing [.reset] (running .pad true none 7#32 zeros), [], rfl⟩

/-- Also for ReversalTableReversesBytes. -/
theorem witness_EngInitBuildsTheTable : (∃ s : State, ready s) ∧ ∃ s : State, ready s ∧ tableBuilt s :=
  ⟨⟨base, base_ready⟩, ⟨built, built_ready, built_table⟩⟩

/-- For AppendedBytesReadBack, ResidueIsZero, DatapathComputesCrc32 and ShortChecksums. -/
theorem witness_wholeWords : ∃ s t : List Byte, s.length % 4 = 0 ∧ s ≠ [] ∧ t.length % 4 ≠ 0 :=
  ⟨zeros, [1#8], by decide, by decide, by decide⟩

theorem witness_EngCrc32FollowsItsPseudocode :
    (∃ (s : State) (l : Dword), s.regs.elen = some l ∧ ready s ∧ s.status.tblValid = false) ∧
    (∃ (s : State) (l : Dword), s.regs.elen = some l ∧ ready s ∧ tableBuilt s ∧ l.toNat % 4 ≠ 0) ∧
    (∃ (s : State) (l : Dword), s.regs.elen = some l ∧ ready s ∧ tableBuilt s ∧ l.toNat % 4 = 0 ∧
      s.params.ebufBytes < l.toNat) ∧
    (∃ (s : State) (l : Dword), s.regs.elen = some l ∧ ready s ∧ tableBuilt s ∧ l.toNat % 4 = 0 ∧
      l.toNat = s.params.ebufBytes) ∧
    (∃ (s : State) (l i : Dword), s.regs.elen = some l ∧ computesAt l i s ∧ tableBuilt s ∧
      i.toNat < l.toNat / 4 ∧ ∃ j, j < 4 ∧ s.ebuf.read (4 * i.toNat + j) = none) ∧
    (∃ (s : State) (l i : Dword) (a : Word) (b0 b1 b2 b3 : Byte), s.regs.elen = some l ∧ computesAt l i s ∧
      tableBuilt s ∧ i.toNat < l.toNat / 4 ∧ s.engine.acc = some a ∧ s.ebuf.read (4 * i.toNat) = some b0 ∧
      s.ebuf.read (4 * i.toNat + 1) = some b1 ∧ s.ebuf.read (4 * i.toNat + 2) = some b2 ∧
      s.ebuf.read (4 * i.toNat + 3) = some b3) ∧
    ∃ (s : State) (l i : Dword) (a : Word), s.regs.elen = some l ∧ computesAt l i s ∧ tableBuilt s ∧
      i.toNat = l.toNat / 4 ∧ s.engine.acc = some a :=
  ⟨⟨{ base with regs.elen := some 4#64 }, 4#64, rfl, ⟨rfl, rfl⟩, rfl⟩,
    ⟨{ built with regs.elen := some 3#64 }, 3#64, rfl, ⟨rfl, rfl⟩, ⟨rfl, rfl⟩, by decide⟩,
    ⟨{ built with regs.elen := some 20#64 }, 20#64, rfl, ⟨rfl, rfl⟩, ⟨rfl, rfl⟩, by decide, by decide⟩,
    ⟨{ built with regs.elen := some 16#64 }, 16#64, rfl, ⟨rfl, rfl⟩, ⟨rfl, rfl⟩, by decide, by decide⟩,
    ⟨{ computing 0#64 0#32 with ebuf := word0.tail }, 4#64, 0#64, rfl, ⟨rfl, rfl, rfl, rfl⟩, ⟨rfl, rfl⟩,
      by decide, 0, by decide, rfl⟩,
    ⟨computing 0#64 0#32, 4#64, 0#64, 0#32, 0x78#8, 0x56#8, 0x34#8, 0x12#8, rfl, computing_computesAt _ _,
      ⟨rfl, rfl⟩, by decide, rfl, rfl, rfl, rfl, rfl⟩,
    ⟨computing 1#64 0#32, 4#64, 1#64, 0#32, rfl, computing_computesAt _ _, ⟨rfl, rfl⟩, by decide, rfl⟩⟩

theorem witness_EngCrc32ComputesTheChecksum :
    ∃ (s : State) (l : Dword) (bytes : List Byte), ready s ∧ tableBuilt s ∧ hostQuiet s ∧ s.regs.elen = some l ∧
      bytes.length = l.toNat ∧ l.toNat % 4 = 0 ∧ l.toNat ≤ s.params.ebufBytes ∧ ebufHolds s.ebuf bytes := by
  refine ⟨{ built with regs.elen := some 4#64, ebuf := word0 }, 4#64, [0x78#8, 0x56#8, 0x34#8, 0x12#8], ⟨rfl, rfl⟩,
    ⟨rfl, rfl⟩, .inl rfl, rfl, rfl, by decide, by decide, ?_⟩
  unfold ebufHolds
  decide

theorem witness_InternalRequestGivesCrc32 :
    (∃ (s : State) (bytes : List Byte), tableBuilt s ∧ bytes.length % 4 = 0) ∧
    ∃ s : State, s.status.tblValid = false :=
  ⟨⟨built, zeros, built_table, by decide⟩, ⟨base, rfl⟩⟩

theorem witness_ToolRunStarts :
    (∃ s : State, ready s ∧ s.regs.padReq = some false) ∧
    ∃ (s : State) (target fill : Dword), ready s ∧ s.regs.padReq = some true ∧ s.regs.padTarget = some target ∧
      s.regs.padFill = some fill :=
  ⟨⟨operands false [], ⟨rfl, rfl⟩, rfl⟩, ⟨operands true [], 12#64, 0#64, ⟨rfl, rfl⟩, rfl, rfl, rfl⟩⟩

theorem witness_OpenReadOpensOrFails :
    (∃ s : State, runsAt .openRead s ∧ s.host.file = none) ∧
    (∃ s : State, runsAt .openRead s ∧ s.host.openReadAnswers = .fail :: []) ∧
    ∃ (s : State) (file : List Byte), runsAt .openRead s ∧ s.host.file = some file ∧
      s.host.openReadAnswers = .ok :: [] :=
  ⟨⟨{ running .openRead true none 0#32 zeros with host := HostSide.launch none }, ⟨rfl, rfl, rfl, rfl⟩, rfl⟩,
    ⟨{ running .openRead true none 0#32 zeros with host.openReadAnswers := [.fail] }, ⟨rfl, rfl, rfl, rfl⟩, rfl⟩,
    ⟨running .openRead true none 0#32 zeros, zeros, running_runsAt _ _ _ _ _, rfl, rfl⟩⟩

/-- Each clause of SIZE_VALIDATE at a boundary: MAX_IMAGE_BYTES is 7, one below the size, and 8, the size; the target
12 is N + 4, or below it. -/
theorem witness_SizeValidateChecksInOrder :
    (∃ (s : State) (file : List Byte) (m : Nat), runsAt .sizeValidate s ∧ s.host.file = some file ∧
      s.params.maxImageBytes = some m ∧ m < file.length) ∧
    (∃ (s : State) (file : List Byte), runsAt .sizeValidate s ∧ s.host.file = some file ∧
      (∀ m, s.params.maxImageBytes = some m → file.length ≤ m) ∧ s.params.maxImageBytes = some file.length ∧
      s.tool.runPadReq = some true ∧ s.tool.runTarget = some 12 ∧ s.tool.runFill = some 0 ∧
      padOk 12 0 file.length = true ∧ file.length % 4 = 0 ∧ padOk 11 0 file.length = false) ∧
    (∃ (s : State) (file : List Byte), runsAt .sizeValidate s ∧ s.host.file = some file ∧
      (∀ m, s.params.maxImageBytes = some m → file.length ≤ m) ∧
      s.tool.runPadReq = some true ∧ s.tool.runTarget = some 12 ∧ s.tool.runFill = some 0 ∧
      padOk 12 0 file.length = true ∧ file.length % 4 ≠ 0) ∧
    (∃ (s : State) (file : List Byte), runsAt .sizeValidate s ∧ s.host.file = some file ∧
      (∀ m, s.params.maxImageBytes = some m → file.length ≤ m) ∧
      s.tool.runPadReq = some true ∧ s.tool.runTarget = some 12 ∧ s.tool.runFill = some 0 ∧
      padOk 12 0 file.length = false) ∧
    (∃ (s : State) (file : List Byte), runsAt .sizeValidate s ∧ s.host.file = some file ∧
      (∀ m, s.params.maxImageBytes = some m → file.length ≤ m) ∧ s.tool.runPadReq = some false ∧
      file.length % 4 ≠ 0) ∧
    ∃ (s : State) (file : List Byte), runsAt .sizeValidate s ∧ s.host.file = some file ∧
      (∀ m, s.params.maxImageBytes = some m → file.length ≤ m) ∧ s.tool.runPadReq = some false ∧
      file.length % 4 = 0 := by
  refine ⟨⟨{ running .sizeValidate true none 0#32 zeros with params := ⟨.le, 16, some 7⟩ }, zeros, 7,
      ⟨rfl, rfl, rfl, rfl⟩, rfl, rfl, by decide⟩,
    ⟨{ running .sizeValidate true none 0#32 zeros with params := ⟨.le, 16, some 8⟩ }, zeros,
      ⟨rfl, rfl, rfl, rfl⟩, rfl, ?_, rfl, rfl, rfl, rfl, by decide, by decide, by decide⟩,
    ⟨running .sizeValidate true none 0#32 (fillBytes 7 0#8), fillBytes 7 0#8, running_runsAt _ _ _ _ _, rfl, ?_,
      rfl, rfl, rfl, by decide, by decide⟩,
    ⟨running .sizeValidate true none 0#32 (fillBytes 12 0#8), fillBytes 12 0#8, running_runsAt _ _ _ _ _, rfl, ?_,
      rfl, rfl, rfl, by decide⟩,
    ⟨running .sizeValidate false none 0#32 (fillBytes 7 0#8), fillBytes 7 0#8, running_runsAt _ _ _ _ _, rfl, ?_,
      rfl, by decide⟩,
    ⟨running .sizeValidate false none 0#32 [], [], running_runsAt _ _ _ _ _, rfl, ?_, rfl, by decide⟩⟩
  · intro m hm; cases hm; decide
  all_goals intro m hm; cases hm

theorem witness_PadValidationGuaranteesThePad : ∃ (target fill : Int) (n : Nat),
    padOk target fill n = true ∧ n % 4 = 0 ∧ target = n + 4 ∧ fill = 255 :=
  ⟨12, 255, 8, by decide, by decide, by decide, rfl⟩

theorem witness_ReadBufferReadsTheImageOrFails :
    (∃ (s : State) (file : List Byte) (k : Nat), runsAt .readBuffer s ∧ s.host.file = some file ∧
      s.host.readAnswers = .short k :: [] ∧ k < file.length) ∧
    (∃ (s : State) (file : List Byte), runsAt .readBuffer s ∧ s.host.file = some file ∧
      s.host.readAnswers = .all :: []) ∧
    ∃ (s : State) (file : List Byte), runsAt .readBuffer s ∧ s.host.file = some file ∧ file = [] :=
  ⟨⟨{ running .readBuffer true none 0#32 zeros with host.readAnswers := [.short 7] }, zeros, 7,
      ⟨rfl, rfl, rfl, rfl⟩, rfl, rfl, by decide⟩,
    ⟨running .readBuffer true none 0#32 zeros, zeros, running_runsAt _ _ _ _ _, rfl, rfl⟩,
    ⟨running .readBuffer true none 0#32 [], [], running_runsAt _ _ _ _ _, rfl, rfl⟩⟩

theorem witness_ComputeCrcSetsToolCrc :
    ∃ (s : State) (img : List Byte), runsAt .computeCrc s ∧ tableBuilt s ∧ s.tool.img = some img ∧
      img.length % 4 = 0 ∧ Coherent s :=
  ⟨running .computeCrc true (some zeros) 0#32 zeros, zeros, running_runsAt _ _ _ _ _, ⟨rfl, rfl⟩, rfl, by decide,
    computeCrc_coherent⟩

theorem witness_ZeroCrcCheckFollowsThePolicy :
    (∃ s : State, runsAt .zeroCrcCheck s ∧ s.regs.toolCrc = some 0#32 ∧ s.tool.runPadReq = some false) ∧
    (∃ s : State, runsAt .zeroCrcCheck s ∧ s.regs.toolCrc = some 0#32 ∧ s.tool.runPadReq = some true) ∧
    ∃ s : State, runsAt .zeroCrcCheck s ∧ s.regs.toolCrc = some 1#32 ∧ s.tool.runPadReq = some false :=
  ⟨⟨running .zeroCrcCheck false none 0#32 zeros, running_runsAt _ _ _ _ _, rfl, rfl⟩,
    ⟨running .zeroCrcCheck true none 0#32 zeros, running_runsAt _ _ _ _ _, rfl, rfl⟩,
    ⟨running .zeroCrcCheck false none 1#32 zeros, running_runsAt _ _ _ _ _, rfl, rfl⟩⟩

theorem witness_OpenAppendOpensOrFails :
    (∃ s : State, runsAt .openAppend s ∧ s.tool.runPadReq = some true ∧
      s.host.openAppendAnswers = .fail :: []) ∧
    (∃ s : State, runsAt .openAppend s ∧ s.tool.runPadReq = some true ∧ s.host.openAppendAnswers = .ok :: []) ∧
    ∃ s : State, runsAt .openAppend s ∧ s.tool.runPadReq = some false ∧ s.host.openAppendAnswers = .ok :: [] :=
  ⟨⟨{ running .openAppend true none 0#32 zeros with host.openAppendAnswers := [.fail] }, ⟨rfl, rfl, rfl, rfl⟩,
      rfl, rfl⟩,
    ⟨running .openAppend true none 0#32 zeros, running_runsAt _ _ _ _ _, rfl, rfl⟩,
    ⟨running .openAppend false none 0#32 zeros, running_runsAt _ _ _ _ _, rfl, rfl⟩⟩

/-- PAD: a pad of no bytes (target N + 4), a complete write and a write short by one byte. -/
theorem witness_PadReplacesTheCrcAndAppends :
    (∃ (s : State) (target fill : Int) (n : Dword) (file : List Byte), runsAt .pad s ∧ tableBuilt s ∧
      s.tool.runPadReq = some true ∧ s.tool.runTarget = some target ∧ s.tool.runFill = some fill ∧
      s.regs.imgSize = some n ∧ s.host.file = some file ∧ padOk target fill n.toNat = true ∧ n.toNat % 4 = 0 ∧
      s.host.padWriteAnswers = .all :: [] ∧ padOf target fill n.toNat = []) ∧
    ∃ (s : State) (target fill : Int) (n : Dword) (file g : List Byte), runsAt .pad s ∧ tableBuilt s ∧
      s.tool.runPadReq = some true ∧ s.tool.runTarget = some target ∧ s.tool.runFill = some fill ∧
      s.regs.imgSize = some n ∧ s.host.file = some file ∧ padOk target fill n.toNat = true ∧ n.toNat % 4 = 0 ∧
      s.host.padWriteAnswers = .short g :: [] ∧ g.length + 1 = (padOf target fill n.toNat).length :=
  ⟨⟨running .pad true none 0#32 zeros, 12, 0, 8#64, zeros, running_runsAt _ _ _ _ _, ⟨rfl, rfl⟩, rfl, rfl, rfl, rfl,
      rfl, by decide, by decide, rfl, by decide⟩,
    ⟨{ running .pad true none 0#32 zeros with
        tool.runTarget := some 16, tool.runFill := some 255, host.padWriteAnswers := [.short [1#8, 2#8, 3#8]] },
      16, 255, 8#64, zeros, [1#8, 2#8, 3#8], ⟨rfl, rfl, rfl, rfl⟩, ⟨rfl, rfl⟩, rfl, rfl, rfl, rfl, rfl, by decide,
      by decide, rfl, by decide⟩⟩

theorem witness_WriteCrcAppendsFourBytes :
    (∃ (s : State) (crc : Word) (file : List Byte), runsAt .writeCrc s ∧ s.regs.toolCrc = some crc ∧
      s.host.file = some file ∧ s.host.crcWriteAnswers = .all :: []) ∧
    ∃ (s : State) (crc : Word) (file g : List Byte), runsAt .writeCrc s ∧ s.regs.toolCrc = some crc ∧
      s.host.file = some file ∧ s.host.crcWriteAnswers = .short g :: [] ∧ g.length < 4 :=
  ⟨⟨running .writeCrc true none 7#32 zeros, 7#32, zeros, running_runsAt _ _ _ _ _, rfl, rfl, rfl⟩,
    ⟨{ running .writeCrc true none 7#32 zeros with host.crcWriteAnswers := [.short [1#8, 2#8, 3#8]] }, 7#32, zeros,
      [1#8, 2#8, 3#8], ⟨rfl, rfl, rfl, rfl⟩, rfl, rfl, rfl, by decide⟩⟩

theorem witness_DoneEndsTheRun : ∃ s : State, runsAt .done s :=
  ⟨running .done true none 7#32 zeros, running_runsAt _ _ _ _ _⟩

theorem witness_AppendsAreCompleteOrShort :
    (∃ (a : WriteAnswer) (bytes : List Byte), a.complete bytes = true) ∧
    ∃ (bytes g : List Byte), g.length < bytes.length ∧ (WriteAnswer.short g).complete bytes = false :=
  ⟨⟨.all, zeros, rfl⟩, ⟨zeros, fillBytes 7 1#8, by decide, by decide⟩⟩

theorem witness_HaltedBlockIsFrozen :
    ∃ (s : State) (r : Reg) (v : Dword), halted s = true ∧ (∀ rest, s.host.script ≠ .reset :: rest) ∧
      s.host.script = .rd r.number :: [] ∧ regValue s r = some v :=
  ⟨playing [.rd 10] stopped, .seqState, 0#64, rfl, fun _ h => (by cases h), rfl, rfl⟩

/-- A host that issues ENG_CRC32 before the table is built (T-ENG-C6). -/
def tooEarly : State := playing [.wr 0 2#64] { base with regs.elen := some 4#64 }

theorem tooEarly_coherent : Coherent tooEarly := by
  refine ⟨⟨List.Pairwise.nil, ?_⟩, rfl, ⟨.inl rfl, ?_, ?_⟩, rfl, fun _ => ⟨rfl, ⟨rfl, rfl, rfl⟩, rfl⟩, ?_, ?_⟩
  · intro c hc; cases hc
  · intro h; cases h
  · intro h; cases h
  · intro i hi; cases hi
  · intro hb; cases hb

theorem idle_no_access (s : State) : ¬hostAccesses (playing [.idle] s) := by
  rintro (⟨_, _, _, h⟩ | ⟨_, _, h⟩ | ⟨_, _, _, h⟩) <;> cases h

theorem witness_FaultAndRefusedAreSticky :
    (∃ s t : State, step s = .next t ∧ (∀ rest, s.host.script ≠ .reset :: rest) ∧ s.status.refused = true) ∧
    (∃ s t : State, step s = .next t ∧ (∀ rest, s.host.script ≠ .reset :: rest) ∧ s.status.fault = true) ∧
    (∃ s t : State, step s = .next t ∧ (∀ rest, s.host.script ≠ .reset :: rest) ∧ Coherent s ∧
      s.status.fault = false ∧ t.status.fault = true) ∧
    (∃ s t : State, step s = .next t ∧ (∀ rest, s.host.script ≠ .reset :: rest) ∧ s.status.refused = false ∧
      t.status.refused = true) ∧
    (∃ s t : State, step s = .next t ∧ (∀ rest, s.host.script ≠ .reset :: rest) ∧ Coherent s ∧
      s.engine.widx = none ∧ ¬hostAccesses s ∧ s.host.script = .idle :: [] ∧ s.status.busy = true) ∧
    ∃ s t u : State, step s = .next t ∧ (∀ rest, s.host.script ≠ .reset :: rest) ∧ Coherent s ∧
      s.engine.widx = none ∧ blockStep s = .next u :=
  ⟨⟨stopped, stopped, rfl, fun _ h => (by cases h), rfl⟩,
    ⟨raiseEngineFault .bounds built, raiseEngineFault .bounds built, rfl, fun _ h => (by cases h), rfl⟩,
    ⟨tooEarly, _, rfl, fun _ h => (by cases h), tooEarly_coherent, rfl, rfl⟩,
    ⟨playing [.rd 11] built, _, rfl, fun _ h => (by cases h), rfl, rfl⟩,
    ⟨playing [.idle] (running .computeCrc true (some zeros) 0#32 zeros), _, rfl, fun _ h => (by cases h),
      computeCrc_coherent.withHost _ rfl, rfl, idle_no_access _, rfl, rfl⟩,
    ⟨running .computeCrc true (some zeros) 0#32 zeros, _, _, rfl, fun _ h => (by cases h), computeCrc_coherent, rfl,
      rfl⟩⟩

theorem witness_SequencerFollowsItsTable :
    ∃ s t : State, Coherent s ∧ step s = .next t ∧ (∀ rest, s.host.script ≠ .reset :: rest) ∧
      t.regs.seqState ≠ s.regs.seqState :=
  ⟨running .computeCrc true (some zeros) 0#32 zeros, _, computeCrc_coherent, rfl, fun _ h => (by cases h), by decide⟩

theorem witness_FileOnlyGrows :
    (∃ s t : State, step s = .next t ∧ s.host.file = none) ∧
    ∃ (s t : State) (file : List Byte), step s = .next t ∧ s.host.file = some file ∧ t.host.file ≠ some file :=
  ⟨⟨base, base, rfl, rfl⟩, ⟨running .writeCrc true none 7#32 zeros, _, zeros, rfl, rfl, by decide +kernel⟩⟩

theorem witness_OnlyPadAndWriteCrcWrite :
    ∃ s t : State, Coherent s ∧ step s = .next t ∧ t.host.file ≠ s.host.file := by
  refine ⟨{ running .writeCrc true none 7#32 zeros with host := granting zeros }, _, ?_, rfl, by decide +kernel⟩
  exact running_coherent ⟨rfl, running_latched _ _ _ _, rfl, rfl, rfl, rfl, rfl⟩

theorem witness_RegistersHaveTheirOwnWriters :
    (∃ s t : State, step s = .next t ∧ (∀ rest, s.host.script ≠ .reset :: rest) ∧
      t.regs.result ≠ s.regs.result) ∧
    (∃ s t : State, step s = .next t ∧ (∀ rest, s.host.script ≠ .reset :: rest) ∧ t.regs.elen ≠ s.regs.elen) ∧
    (∃ s t : State, step s = .next t ∧ (∀ rest, s.host.script ≠ .reset :: rest) ∧
      t.regs.padReq ≠ s.regs.padReq) ∧
    (∃ s t : State, step s = .next t ∧ (∀ rest, s.host.script ≠ .reset :: rest) ∧
      t.regs.padTarget ≠ s.regs.padTarget) ∧
    (∃ s t : State, step s = .next t ∧ (∀ rest, s.host.script ≠ .reset :: rest) ∧
      t.regs.padFill ≠ s.regs.padFill) ∧
    (∃ s t : State, step s = .next t ∧ (∀ rest, s.host.script ≠ .reset :: rest) ∧ t.ebuf ≠ s.ebuf) ∧
    (∃ s t : State, step s = .next t ∧ (∀ rest, s.host.script ≠ .reset :: rest) ∧
      t.status.tblValid ≠ s.status.tblValid) ∧
    (∃ s t : State, step s = .next t ∧ (∀ rest, s.host.script ≠ .reset :: rest) ∧
      t.regs.toolCrc ≠ s.regs.toolCrc) ∧
    (∃ s t : State, step s = .next t ∧ (∀ rest, s.host.script ≠ .reset :: rest) ∧
      t.regs.imgSize ≠ s.regs.imgSize) ∧
    (∃ s t : State, step s = .next t ∧ (∀ rest, s.host.script ≠ .reset :: rest) ∧
      t.regs.padLen ≠ s.regs.padLen) ∧
    (∃ s t : State, step s = .next t ∧ (∀ rest, s.host.script ≠ .reset :: rest) ∧
      t.tool.runTarget ≠ s.tool.runTarget) ∧
    (∃ s t : State, step s = .next t ∧ (∀ rest, s.host.script ≠ .reset :: rest) ∧ s.tool.rdOpen = false ∧
      t.tool.rdOpen = true) ∧
    (∃ s t : State, step s = .next t ∧ (∀ rest, s.host.script ≠ .reset :: rest) ∧ s.tool.apOpen = false ∧
      t.tool.apOpen = true) ∧
    ∃ s t : State, step s = .next t ∧ (∀ rest, s.host.script ≠ .reset :: rest) ∧ s.tool.apOpen = true ∧
      t.tool.apOpen = false :=
  ⟨⟨computing 1#64 0#32, _, rfl, fun _ h => (by cases h), by decide +kernel⟩,
    ⟨playing [.wr 3 4#64] base, _, rfl, fun _ h => (by cases h), by decide +kernel⟩,
    ⟨playing [.wr 4 1#64] base, _, rfl, fun _ h => (by cases h), by decide +kernel⟩,
    ⟨playing [.wr 5 4#64] base, _, rfl, fun _ h => (by cases h), by decide +kernel⟩,
    ⟨playing [.wr 6 4#64] base, _, rfl, fun _ h => (by cases h), by decide +kernel⟩,
    ⟨playing [.ebufWr 15 1#8] base, _, rfl, fun _ h => (by cases h), by decide +kernel⟩,
    ⟨playing [.wr 0 1#64] base, _, rfl, fun _ h => (by cases h), by decide +kernel⟩,
    ⟨running .computeCrc true (some zeros) 0#32 zeros, _, rfl, fun _ h => (by cases h), by decide +kernel⟩,
    ⟨{ running .sizeValidate true none 0#32 zeros with regs.imgSize := none }, _, rfl, fun _ h => (by cases h),
      by decide +kernel⟩,
    ⟨running .pad true none 0#32 zeros, _, rfl, fun _ h => (by cases h), by decide +kernel⟩,
    ⟨playing [.wr 0 3#64] (operands true zeros), _, rfl, fun _ h => (by cases h), by decide +kernel⟩,
    ⟨{ running .openRead true none 0#32 zeros with tool.rdOpen := false }, _, rfl, fun _ h => (by cases h), rfl, rfl⟩,
    ⟨running .openAppend true none 0#32 zeros, _, rfl, fun _ h => (by cases h), rfl, rfl⟩,
    ⟨running .done true none 0#32 zeros, _, rfl, fun _ h => (by cases h), rfl, rfl⟩⟩

theorem witness_UnansweredCallWaits :
    (∃ s : State, s.host.file = some zeros ∧ runsAt .openRead s ∧ s.host.openReadAnswers = []) ∧
    (∃ s : State, s.host.file = some zeros ∧ runsAt .readBuffer s ∧ s.host.readAnswers = []) ∧
    (∃ s : State, s.host.file = some zeros ∧ runsAt .openAppend s ∧ s.tool.runPadReq.isSome = true ∧
      s.host.openAppendAnswers = []) ∧
    (∃ s : State, s.host.file = some zeros ∧ runsAt .pad s ∧ s.tool.runPadReq = some true ∧
      s.tool.runTarget = some 16 ∧ s.tool.runFill = some 0 ∧ s.regs.imgSize = some 8#64 ∧ padOf 16 0 8 ≠ [] ∧
      s.host.padWriteAnswers = []) ∧
    ∃ s : State, s.host.file = some zeros ∧ runsAt .writeCrc s ∧ s.regs.toolCrc.isSome = true ∧
      s.host.crcWriteAnswers = [] :=
  ⟨⟨{ running .openRead true none 0#32 zeros with host := HostSide.launch (some zeros) }, rfl,
      ⟨rfl, rfl, rfl, rfl⟩, rfl⟩,
    ⟨{ running .readBuffer true none 0#32 zeros with host := HostSide.launch (some zeros) }, rfl,
      ⟨rfl, rfl, rfl, rfl⟩, rfl⟩,
    ⟨{ running .openAppend true none 0#32 zeros with host := HostSide.launch (some zeros) }, rfl,
      ⟨rfl, rfl, rfl, rfl⟩, rfl, rfl⟩,
    ⟨{ running .pad true none 0#32 zeros with
        host := HostSide.launch (some zeros), tool.runTarget := some 16 }, rfl,
      ⟨rfl, rfl, rfl, rfl⟩, rfl, rfl, rfl, rfl, by decide, rfl⟩,
    ⟨{ running .writeCrc true none 0#32 zeros with host := HostSide.launch (some zeros) }, rfl,
      ⟨rfl, rfl, rfl, rfl⟩, rfl, rfl⟩⟩

theorem witness_OversizedImageIsStuck :
    ∃ (s : State) (file : List Byte) (m : Nat), runsAt .sizeValidate s ∧ hostQuiet s ∧ s.host.file = some file ∧
      s.params.maxImageBytes = some m ∧ m < file.length :=
  ⟨{ running .sizeValidate true none 0#32 zeros with params := ⟨.le, 16, some 7⟩ }, zeros, 7, ⟨rfl, rfl, rfl, rfl⟩,
    .inl rfl, rfl, rfl, by decide⟩

theorem witness_StepKeepsTheInvariant : ∃ s t : State, Coherent s ∧ step s = .next t ∧ t ≠ s :=
  ⟨running .computeCrc true (some zeros) 0#32 zeros, _, computeCrc_coherent, rfl, by decide +kernel⟩

theorem witness_EveryStateOfTheInvariantSteps : ∃ s : State, Coherent s := ⟨_, pad_coherent⟩

/-- A run of two further steps, which ends in UNALIGNED_IMAGE_SIZE. -/
theorem witness_RunsEndAsTheOutcomeTableSays :
    ∃ (s t u : State) (k : Nat) (ops : ToolOperands), Coherent s ∧ ready s ∧ s.host.script = [] ∧
      toolOperands s = some ops ∧ exec .toolRun s = .next t ∧ core.run k t = .next u ∧ u.status.busy = false :=
  ⟨operands false (fillBytes 7 0#8), _, _, 2, ⟨none⟩, operands_coherent _ _, ⟨rfl, rfl⟩, rfl, rfl, rfl, rfl, rfl⟩

theorem granting_allSucceed (file : List Byte) : allSucceed (granting file) := ⟨rfl, rfl, rfl, rfl, rfl⟩

theorem witness_UnpaddedRunAppendsTheImageCrc :
    ∃ (s : State) (file : List Byte), Coherent s ∧ ready s ∧ hostQuiet s ∧ s.regs.padReq = some false ∧
      s.host.file = some file ∧ file.length % 4 = 0 ∧ exceedsMaxImage s.params file.length = false ∧
      crc32 s.params.byteOrder file ≠ 0#32 ∧ allSucceed s.host :=
  ⟨operands false zeros, zeros, operands_coherent _ _, ⟨rfl, rfl⟩, .inl rfl, rfl, rfl, by decide, rfl,
    by decide +kernel, granting_allSucceed _⟩

/-- Also the witness for the first of the two states of `PaddedOutputIgnoresTheImage`. -/
theorem witness_PaddedRunAppendsThePadCrc :
    ∃ (s : State) (file : List Byte) (target fill : Dword), Coherent s ∧ ready s ∧ hostQuiet s ∧
      s.regs.padReq = some true ∧ s.regs.padTarget = some target ∧ s.regs.padFill = some fill ∧
      s.host.file = some file ∧ file.length % 4 = 0 ∧ exceedsMaxImage s.params file.length = false ∧
      padOk target.toInt fill.toInt file.length = true ∧ allSucceed s.host :=
  ⟨operands true zeros, zeros, 12#64, 0#64, operands_coherent _ _, ⟨rfl, rfl⟩, .inl rfl, rfl, rfl, rfl, rfl,
    by decide, rfl, by decide, granting_allSucceed _⟩

theorem witness_PaddedOutputIgnoresTheImage :
    ∃ (s1 s2 : State) (file1 file2 : List Byte) (target fill : Dword),
      (∀ s ∈ [s1, s2], Coherent s ∧ ready s ∧ hostQuiet s ∧ s.regs.padReq = some true ∧
        s.regs.padTarget = some target ∧ s.regs.padFill = some fill ∧ allSucceed s.host) ∧
      s1.params = s2.params ∧ s1.host.file = some file1 ∧ s2.host.file = some file2 ∧
      file1.length = file2.length ∧ file1.length % 4 = 0 ∧ exceedsMaxImage s1.params file1.length = false ∧
      padOk target.toInt fill.toInt file1.length = true ∧ file1 ≠ file2 := by
  refine ⟨operands true zeros, operands true (fillBytes 8 1#8), zeros, fillBytes 8 1#8, 12#64, 0#64, ?_, rfl, rfl,
    rfl, rfl, by decide, rfl, by decide, by decide⟩
  have h : ∀ file, Coherent (operands true file) ∧ ready (operands true file) ∧ hostQuiet (operands true file) ∧
      (operands true file).regs.padReq = some true ∧ (operands true file).regs.padTarget = some 12#64 ∧
      (operands true file).regs.padFill = some 0#64 ∧ allSucceed (operands true file).host :=
    fun file => ⟨operands_coherent _ _, ⟨rfl, rfl⟩, .inl rfl, rfl, rfl, rfl, granting_allSucceed _⟩
  intro s hs
  cases hs with
  | head => exact h _
  | tail _ hs =>
    cases hs with
    | head => exact h _
    | tail _ hs => cases hs

theorem witness_EveryRunEndsWithinTenSteps :
    ∃ s : State, Coherent s ∧ ready s ∧ hostQuiet s ∧ (toolOperands s).isSome = true ∧ allAnswered s.host ∧
      ∀ file, s.host.file = some file → exceedsMaxImage s.params file.length = false :=
  ⟨operands true zeros, operands_coherent _ _, ⟨rfl, rfl⟩, .inl rfl, rfl,
    ⟨by decide, by decide, by decide, by decide, by decide⟩, fun _ _ => rfl⟩

/-- The three reruns of R180 on the output of runs on the image of zeros, with a pad of no bytes and another fill in (b)
and a pad of 4 bytes 0xFF in (c). -/
theorem witness_RerunsEndAsTheOutputDecides :
    (∃ (s : State) (file0 file : List Byte), Coherent s ∧ ready s ∧ hostQuiet s ∧ s.host.file = some file ∧
      file0.length % 4 = 0 ∧ exceedsMaxImage s.params file.length = false ∧ allSucceed s.host ∧
      s.regs.padReq = some false ∧ file = file0 ++ bytes32 s.params.byteOrder (crc32 s.params.byteOrder file0)) ∧
    (∃ (s : State) (file0 file : List Byte) (target fill : Dword) (fill0 : Int), Coherent s ∧ ready s ∧ hostQuiet s ∧
      s.host.file = some file ∧ file0.length % 4 = 0 ∧ exceedsMaxImage s.params file.length = false ∧
      allSucceed s.host ∧ s.regs.padReq = some true ∧ s.regs.padTarget = some target ∧
      s.regs.padFill = some fill ∧ fill.toInt ≠ fill0 ∧ padOk target.toInt fill0 file0.length = true ∧
      file = file0 ++ padOf target.toInt fill0 file0.length ++
        bytes32 s.params.byteOrder (crc32 s.params.byteOrder (padOf target.toInt fill0 file0.length))) ∧
    ∃ (s : State) (file0 file : List Byte) (target fill : Int), Coherent s ∧ ready s ∧ hostQuiet s ∧
      s.host.file = some file ∧ file0.length % 4 = 0 ∧ exceedsMaxImage s.params file.length = false ∧
      allSucceed s.host ∧ s.regs.padReq = some false ∧ padOk target fill file0.length = true ∧
      file = file0 ++ padOf target fill file0.length ++
        bytes32 s.params.byteOrder (crc32 s.params.byteOrder (padOf target fill file0.length)) ∧
      crc32 s.params.byteOrder file ≠ 0#32 :=
  ⟨⟨operands false (zeros ++ bytes32 .le (crc32 .le zeros)), zeros, _, operands_coherent _ _, ⟨rfl, rfl⟩, .inl rfl, rfl, by decide, rfl,
      granting_allSucceed _, rfl, rfl⟩,
    ⟨operands true (zeros ++ padOf 12 7 8 ++ bytes32 .le (crc32 .le (padOf 12 7 8))), zeros, _, 12#64, 0#64, 7,
      operands_coherent _ _, ⟨rfl, rfl⟩, .inl rfl, rfl, by decide, rfl,
      granting_allSucceed _, rfl, rfl, rfl, by decide, by decide, rfl⟩,
    ⟨operands false (zeros ++ padOf 16 255 8 ++ bytes32 .le (crc32 .le (padOf 16 255 8))), zeros, _, 16, 255,
      operands_coherent _ _, ⟨rfl, rfl⟩, .inl rfl, rfl, by decide, rfl, granting_allSucceed _, rfl, by decide, rfl,
      by decide +kernel⟩⟩

end Sys2Proof.Tests
end

section
/-! PROOF. The family 00_scope.md: the table reads reverse a word (O18), every state of the invariant steps (O52), and
while the host leaves the block alone a step is the block's own (O6). -/

namespace Sys2Proof.Machine

/-! ### Word reversal by table reads (R88) -/

/-- A byte of a word, reversed and moved to the mirrored place, holds the mirrored bits of the word and no other. -/
theorem getLsbD_mirroredByte (w : Word) {lo sh i : Nat} (h : lo + sh = 24) (hi : i < 32) :
    ((rev8 (w.extractLsb' lo 8)).setWidth 32 <<< sh).getLsbD i
      = (decide (sh ≤ i ∧ i < sh + 8) && w.getLsbD (31 - i)) := by
  rw [BitVec.getLsbD_shiftLeft, BitVec.getLsbD_setWidth]
  by_cases hin : sh ≤ i ∧ i < sh + 8
  · have hmirror : lo + (7 - (i - sh)) = 31 - i := by omega
    rw [getLsbD_rev8 _ (by omega), BitVec.getLsbD_extractLsb', hmirror]
    simp [hi, hin, show ¬i < sh by omega, show i - sh < 32 by omega, show 7 - (i - sh) < 8 by omega]
  · by_cases hlow : i < sh
    · simp [hlow, hin]
    · simp [BitVec.getLsbD_of_ge, hin, show 8 ≤ i - sh by omega]

/-- With RT built, the four table reads reverse a word (R88): the reversed bytes land in the four byte places, so each
bit of the result comes from exactly one of them. -/
theorem revw_revTable (w : Word) : revw revTable w = rev32 w := by
  refine BitVec.eq_of_getLsbD_eq fun i hi => ?_
  have hlast := getLsbD_mirroredByte w (lo := 24) (sh := 0) rfl hi
  rw [BitVec.shiftLeft_zero] at hlast
  simp only [revw, rtRead_revTable, BitVec.getLsbD_or, getLsbD_mirroredByte w _ hi, hlast, getLsbD_rev32 w hi]
  cases w.getLsbD (31 - i) with
  | false => simp
  | true => simp only [Bool.and_true, Bool.or_eq_true, decide_eq_true_eq]; omega

/-- Settles O18, through the mirrored place of each byte. -/
theorem revwReversesWords : Obligations.RevwReversesWords :=
  fun w => ⟨fun _ => rfl, revw_revTable w, fun _ h => getLsbD_rev32 w h⟩

/-! ### What answers a next state -/

/-- A choice answers a next state where both its branches do. -/
theorem ite_answers {c : Prop} [Decidable c] {r r' : Result} (h : ∃ t, r = .next t) (h' : ∃ t, r' = .next t) :
    ∃ t, (if c then r else r') = .next t := by
  split
  · exact h
  · exact h'

/-- A file call answers a next state where its continuation does: without an answer of the host it waits (R161). -/
theorem onAnswer_answers {α : Type} {s : State} {f : Option α} {q : List α} {k : α → Result}
    (h : ∀ a, ∃ t, k a = .next t) : ∃ t, onAnswer s f q k = .next t := by
  cases f with
  | some a => simpa using h a
  | none =>
    cases q with
    | nil => exact ⟨s, rfl⟩
    | cons a q => exact h a

/-- The internal request answers a next state where its continuation does: without a table it is an engine fault of
the spec (R102, R151). -/
theorem engineRequest_answers {bytes : List Byte} {s : State} {k : Word → State → Result}
    (h : ∀ crc u, ∃ t, k crc u = .next t) : ∃ t, engineRequest bytes s k = .next t := by
  cases htab : builtTable s with
  | none => exact ⟨_, engineRequest_notBuilt bytes k htab⟩
  | some tab => rw [engineRequest_built bytes k htab]; exact h _ _

/-- A latched descriptor says whether padding is requested (R38). -/
theorem runPadReq_of_latchedInv {s : State} (h : latchedInv s) : ∃ p, s.tool.runPadReq = some p := by
  rcases h with hp | ⟨hp, -, -⟩ <;> exact ⟨_, hp⟩

/-- A descriptor latched with padding requested has a target and a fill (R38). -/
theorem latchedPadding_requested {s : State} (h : latchedInv s) (hp : s.tool.runPadReq = some true) :
    ∃ target fill, latchedPadding s = .ok (some (target, fill)) := by
  rcases h with hfalse | ⟨-, htarget, hfill⟩
  · rw [hp] at hfalse; cases hfalse
  · obtain ⟨target, ht⟩ := Option.isSome_iff_exists.mp htarget
    obtain ⟨fill, hf⟩ := Option.isSome_iff_exists.mp hfill
    exact ⟨target, fill, latchedPadding_some.mpr ⟨hp, ht, hf⟩⟩

/-- A latched descriptor can be read: no register it needs is without a value (R38). -/
theorem latchedPadding_ok {s : State} (h : latchedInv s) : ∃ d, latchedPadding s = .ok d := by
  obtain ⟨p, hp⟩ := runPadReq_of_latchedInv h
  cases p with
  | false => exact ⟨_, latchedPadding_none hp⟩
  | true =>
    obtain ⟨target, fill, hd⟩ := latchedPadding_requested h hp
    exact ⟨_, hd⟩

/-! ### The ENGINE's steps -/

theorem engineWordStep_answers (i : Dword) {s : State} {a : Word} (ha : s.engine.acc = some a) :
    ∃ t, engineWordStep i s = .next t := by
  unfold engineWordStep
  rw [ha]
  split
  · exact ⟨_, rfl⟩
  · split <;> exact ⟨_, rfl⟩

theorem engineFinalStep_answers {s : State} {a : Word} (ha : s.engine.acc = some a) :
    ∃ t, engineFinalStep s = .next t := by
  unfold engineFinalStep
  rw [ha]
  split <;> exact ⟨_, rfl⟩

/-- An ENG_CRC32 in progress steps: its index is at most L/4, and ACC holds a value (R104). -/
theorem engineStep_answers {i : Dword} {s : State} (h : engineInv i s) : ∃ t, engineStep i s = .next t := by
  obtain ⟨-, -, hacc, l, hl, -, -, hi⟩ := h
  obtain ⟨a, ha⟩ := Option.isSome_iff_exists.mp hacc
  unfold engineStep
  rw [hl]
  dsimp only
  split
  · exact engineWordStep_answers i ha
  · rw [if_pos (by omega)]
    exact engineFinalStep_answers ha

/-! ### The sequencer's steps -/

theorem toolOpenRead_answers (s : State) : ∃ t, toolOpenRead s = .next t :=
  onAnswer_answers fun a => by cases a <;> exact ⟨_, rfl⟩

theorem toolSizeValidate_answers {s : State} {file : List Byte} (hf : s.host.file = some file) (hl : latchedInv s) :
    ∃ t, toolSizeValidate s = .next t := by
  obtain ⟨d, hd⟩ :=
    latchedPadding_ok (s := { s with regs.imgSize := some (BitVec.ofNat 64 file.length) }) hl
  unfold toolSizeValidate
  simp only [hf, hd]
  exact ite_answers ⟨_, rfl⟩ (ite_answers ⟨_, rfl⟩ (ite_answers ⟨_, rfl⟩ ⟨_, rfl⟩))

theorem toolReadBuffer_answers {s : State} {file : List Byte} (hf : s.host.file = some file) :
    ∃ t, toolReadBuffer s = .next t := by
  unfold toolReadBuffer
  rw [hf]
  exact onAnswer_answers fun _ => ite_answers ⟨_, rfl⟩ ⟨_, rfl⟩

theorem toolComputeCrc_answers {s : State} {img : List Byte} (hi : s.tool.img = some img) :
    ∃ t, toolComputeCrc s = .next t := by
  unfold toolComputeCrc
  rw [hi]
  exact engineRequest_answers fun _ _ => ⟨_, rfl⟩

theorem toolZeroCrcCheck_answers {s : State} {crc : Word} {p : Bool} (hc : s.regs.toolCrc = some crc)
    (hp : s.tool.runPadReq = some p) : ∃ t, toolZeroCrcCheck s = .next t := by
  unfold toolZeroCrcCheck
  rw [hc, hp]
  exact ite_answers ⟨_, rfl⟩ ⟨_, rfl⟩

theorem toolOpenAppend_answers {s : State} {p : Bool} (hp : s.tool.runPadReq = some p) :
    ∃ t, toolOpenAppend s = .next t := by
  unfold toolOpenAppend
  rw [hp]
  exact onAnswer_answers fun a => by cases a <;> exact ⟨_, rfl⟩

theorem toolPad_answers {s : State} {target fill : Int} {n : Dword} {file : List Byte}
    (hd : latchedPadding s = .ok (some (target, fill))) (hn : s.regs.imgSize = some n)
    (hf : s.host.file = some file) : ∃ t, toolPad s = .next t := by
  unfold toolPad
  rw [hd, hn, hf]
  exact onAnswer_answers fun _ => engineRequest_answers fun _ _ => ite_answers ⟨_, rfl⟩ ⟨_, rfl⟩

theorem toolWriteCrc_answers {s : State} {crc : Word} {file : List Byte} (hc : s.regs.toolCrc = some crc)
    (hf : s.host.file = some file) : ∃ t, toolWriteCrc s = .next t := by
  unfold toolWriteCrc
  rw [hc, hf]
  exact onAnswer_answers fun _ => ite_answers ⟨_, rfl⟩ ⟨_, rfl⟩

/-- A run in progress steps, by sequencer state: the steps before have left what this one reads (R130). -/
theorem toolStep_answers {s : State} (h : runInv s) : ∃ t, toolStep s = .next t := by
  obtain ⟨-, hlatch, hstate⟩ := h
  obtain ⟨p, hp⟩ := runPadReq_of_latchedInv hlatch
  unfold toolStep
  cases hq : s.regs.seqState <;> rw [hq] at hstate
  case openRead => exact toolOpenRead_answers s
  case sizeValidate =>
    obtain ⟨-, -, -, hfile⟩ := hstate
    obtain ⟨file, hf⟩ := Option.isSome_iff_exists.mp hfile
    exact toolSizeValidate_answers hf hlatch
  case readBuffer =>
    obtain ⟨-, -, -, file, hf, -⟩ := hstate
    exact toolReadBuffer_answers hf
  case computeCrc =>
    obtain ⟨-, -, file, -, himg, -⟩ := hstate
    exact toolComputeCrc_answers himg
  case zeroCrcCheck =>
    obtain ⟨-, -, -, file, -, -, hcrc⟩ := hstate
    exact toolZeroCrcCheck_answers hcrc hp
  case openAppend => exact toolOpenAppend_answers hp
  case pad =>
    obtain ⟨-, -, -, hpad, file, hf, hsize, -⟩ := hstate
    obtain ⟨target, fill, hd⟩ := latchedPadding_requested hlatch hpad
    exact toolPad_answers hd hsize hf
  case writeCrc =>
    obtain ⟨-, -, -, hfile, hcrc⟩ := hstate
    obtain ⟨file, hf⟩ := Option.isSome_iff_exists.mp hfile
    obtain ⟨crc, hc⟩ := Option.isSome_iff_exists.mp hcrc
    exact toolWriteCrc_answers hc hf
  case done => exact ⟨_, rfl⟩
  case idle | start | fail => exact hstate.elim

/-! ### Every state of the invariant steps -/

/-- The block steps: it stays, or its ENG_CRC32 or its run goes on as the invariant allows. -/
theorem blockStep_answers {s : State} (h : Coherent s) : ∃ t, blockStep s = .next t := by
  unfold blockStep
  split
  · exact ⟨_, rfl⟩
  · split
    · rename_i hb
      split
      · rename_i i hi
        obtain ⟨hengine, -, -⟩ := h.engine i hi
        exact engineStep_answers hengine
      · rename_i hw
        exact toolStep_answers (h.run hb hw)
    · exact ⟨_, rfl⟩

/-- Settles O52: the only moves that could fault are the block's own, and the invariant holds what they read. -/
theorem everyStateOfTheInvariantSteps : Obligations.EveryStateOfTheInvariantSteps :=
  fun _ h => step_answers fun _ => blockStep_answers (h.withHost _ rfl)

/-! ### The step while the host leaves the block alone -/

theorem step_of_emptyScript {s : State} (h : s.host.script = []) : step s = blockStep s := by
  unfold step nextMove
  rw [h]

/-- Settles O6, by the script's two quiet forms and the block's two ways to stay. -/
theorem stepLetsTheBlockWork : Obligations.StepLetsTheBlockWork :=
  fun _ => ⟨step_of_emptyScript, fun rest hs hb => step_quiet (.inr ⟨rest, hs⟩) hb, blockStep_of_idle,
    blockStep_of_halted⟩

end Sys2Proof.Machine
end

section
/-! PROOF. The family 10_state.md: everything a step other than a reset can do, said once (`StepEffect`); every step
keeps the invariant (O51); the STATUS word (O13); refused, accepted and well-formed accesses (O8, O9, O10, O12); and
who writes FAULT, REFUSED and each register (O43, O47). -/

namespace Sys2Proof.Machine

/-! ### The datapath computes crc32 (R98) -/

/-- A word is its upper bytes and its lowest byte. -/
theorem upper_xor_lowByte (a : Word) : (a >>> 8 <<< 8) ^^^ (a.extractLsb' 0 8).setWidth 32 = a := by
  refine BitVec.eq_of_getLsbD_eq fun i hi => ?_
  by_cases h : i < 8
  · simp [h, hi]
  · simp [BitVec.getLsbD_of_ge, h, hi, show 8 ≤ i by omega, show 8 + (i - 8) = i by omega]

/-- A round is eight reflected bit steps (R91). -/
theorem crcRound_eq_iterate (a : Word) : crcRound a = iterate steplsb 8 a := by
  have hupper : iterate steplsb 8 (a >>> 8 <<< 8) = a >>> 8 := by
    rw [iterate_steplsb_of_low_zero 8 _ fun i hi => by simp [hi]]
    refine BitVec.eq_of_getLsbD_eq fun i hi => ?_
    by_cases h : 8 + i < 32
    · simp [h]
    · simp [h, BitVec.getLsbD_of_ge a (8 + i) (by omega)]
  calc crcRound a
      = iterate steplsb 8 (a >>> 8 <<< 8) ^^^ iterate steplsb 8 ((a.extractLsb' 0 8).setWidth 32) := by
        rw [hupper]; rfl
    _ = iterate steplsb 8 a := by rw [← iterate_xor steplsb_xor, upper_xor_lowByte]

/-- A reflected word step mirrors the peripheral's word update (R94, R98). -/
theorem wordstep_rev32 (s w : Word) : wordstep revTable (rev32 s) w = rev32 (upd s w) := by
  calc wordstep revTable (rev32 s) w
      = iterate steplsb (8 + 8 + 8 + 8) (rev32 s ^^^ rev32 w) := by
        simp only [wordstep, crcRound_eq_iterate, revw_revTable, iterate_add]
    _ = iterate steplsb 32 (rev32 (s ^^^ w)) := by rw [rev32_xor]
    _ = rev32 (upd s w) := (iterate_commutes rev32_stepmsb 32 _).symm

/-- The reflected word steps mirror the peripheral's updates over any words. -/
theorem foldl_wordstep_rev32 (ws : List Word) (s : Word) :
    ws.foldl (wordstep revTable) (rev32 s) = rev32 (ws.foldl upd s) := by
  induction ws generalizing s with
  | nil => rfl
  | cons w ws ih => rw [List.foldl_cons, wordstep_rev32, ih, List.foldl_cons]

/-- The built table's datapath gives the normative CRC (R98, R102). -/
theorem revw_accAfter (o : ByteOrder) (bytes : List Byte) :
    revw revTable (accAfter revTable o bytes) = crc32 o bytes := by
  have h := foldl_wordstep_rev32 (wordsOf o bytes) Config.initValue
  rw [rev32_initValue] at h
  rw [revw_revTable, accAfter, h, rev32_rev32, crc32]

/-! ### Everything a step other than a reset can do -/

/-- What a step can lead to where the host does not reset the block, with the moves of the script resolved to their
outcomes: a step of the block, an access or its refusal, or the issue of a command. -/
inductive StepEffect (s : State) : State → Prop
  /-- A step of the block, under `idle`, a pending `wait` or an empty script. -/
  | block (rest : List HostMove) {t : State} (h : BlockCase (withScript s rest) t) : StepEffect s t
  /-- The block stays: a finished `wait`, a read, or a move a halted block ignores. -/
  | hostOnly (hs : HostSide) (hf : hs.file = s.host.file) : StepEffect s { s with host := hs }
  /-- A refused access or command. -/
  | refused (hs : HostSide) (hf : hs.file = s.host.file) (c : RefusalCause) (hh : halted s = false)
      (ha : hostAccesses s) : StepEffect s (refuse c { s with host := hs })
  | elen (rest : List HostMove) (v w : Dword) (hs : s.host.script = .wr 3 v :: rest) (hr : ready s) :
      StepEffect s { withScript s rest with regs.elen := some w }
  | padReq (rest : List HostMove) (v : Dword) (b : Bool) (hs : s.host.script = .wr 4 v :: rest) (hr : ready s) :
      StepEffect s { withScript s rest with regs.padReq := some b }
  | padTarget (rest : List HostMove) (v w : Dword) (hs : s.host.script = .wr 5 v :: rest) (hr : ready s) :
      StepEffect s { withScript s rest with regs.padTarget := some w }
  | padFill (rest : List HostMove) (v w : Dword) (hs : s.host.script = .wr 6 v :: rest) (hr : ready s) :
      StepEffect s { withScript s rest with regs.padFill := some w }
  | ebufByte (rest : List HostMove) (off : Nat) (b : Byte) (hs : s.host.script = .ebufWr off b :: rest)
      (hr : ready s) (ho : off < s.params.ebufBytes) :
      StepEffect s { withScript s rest with ebuf := s.ebuf.write off b }
  | engInit (rest : List HostMove) (hi : issues .engInit s) :
      StepEffect s (completeCommand (buildTable (beginCommand (withScript s rest))))
  /-- ENG_CRC32 faults at its issue. -/
  | crcFaults (rest : List HostMove) (hi : issues .engCrc32 s) (c : EngineCause) :
      StepEffect s (raiseEngineFault c (beginCommand (withScript s rest)))
  /-- ENG_CRC32 starts to compute. -/
  | crcStarts (rest : List HostMove) (hi : issues .engCrc32 s) (l : Dword) (hl : s.regs.elen = some l)
      (htab : builtTable s ≠ none) (ha : l.toNat % 4 = 0) (hb : l.toNat ≤ s.params.ebufBytes) :
      StepEffect s
        { beginCommand (withScript s rest) with
          engine.acc := some Config.initValue, engine.widx := some 0#64 }
  | runStartsPadded (rest : List HostMove) (hi : issues .toolRun s) (target fill : Int) :
      StepEffect s (startRun ⟨some (target, fill)⟩ (withScript s rest))
  | runStartsUnpadded (rest : List HostMove) (hi : issues .toolRun s) :
      StepEffect s (startRun ⟨none⟩ (withScript s rest))

/-- Taking the next move from the script is one of the effects: what a move that does nothing leaves. -/
theorem withScript_effect (s : State) (rest : List HostMove) : StepEffect s (withScript s rest) :=
  .hostOnly (withScript s rest).host rfl

theorem refuse_effect {s : State} (rest : List HostMove) (c : RefusalCause) (hh : halted s = false)
    (ha : hostAccesses s) : StepEffect s (refuse c (withScript s rest)) :=
  StepEffect.refused (s := s) (withScript s rest).host rfl c hh ha

/-- A command's issue ignores, refuses, faults or starts the command. -/
theorem exec_effect {s t : State} {v : Dword} {rest : List HostMove} {i : Instr}
    (hs : s.host.script = .wr 0 v :: rest) (hi : decode (v.setWidth 32) = .ok i)
    (h : exec i (withScript s rest) = .next t) : StepEffect s t := by
  have ha : hostAccesses s := .inl ⟨0, v, rest, hs⟩
  have hissue (hr : ready s) : issues i s := ⟨hr, v, rest, hs, hi⟩
  cases i with
  | engInit =>
    rcases execEngInit_cases h with ⟨-, rfl⟩ | ⟨hh, -, rfl⟩ | ⟨hr, rfl⟩
    · exact withScript_effect s rest
    · exact refuse_effect rest _ hh ha
    · exact .engInit rest (hissue hr)
  | engCrc32 =>
    rcases execEngCrc32_cases h with ⟨-, rfl⟩ | ⟨hh, -, rfl⟩ | ⟨hr, -, rfl⟩ | ⟨hr, l, hl, rfl⟩
    · exact withScript_effect s rest
    · exact refuse_effect rest _ hh ha
    · exact refuse_effect rest _ hr.1 ha
    · rcases startCrc32_cases l (beginCommand (withScript s rest)) with ⟨c, hc⟩ | ⟨htab, h4, hb, hc⟩
      · rw [hc]; exact .crcFaults rest (hissue hr) c
      · rw [hc]; exact .crcStarts rest (hissue hr) l hl htab h4 hb
  | toolRun =>
    rcases execToolRun_cases h with ⟨-, rfl⟩ | ⟨hh, -, rfl⟩ | ⟨hr, -, rfl⟩ | ⟨hr, ⟨d⟩, -, rfl⟩
    · exact withScript_effect s rest
    · exact refuse_effect rest _ hh ha
    · exact refuse_effect rest _ hr.1 ha
    · cases d with
      | none => exact .runStartsUnpadded rest (hissue hr)
      | some d => exact .runStartsPadded rest (hissue hr) d.1 d.2

theorem WriteCase.effect {s t : State} {reg : Nat} {v : Dword} {rest : List HostMove}
    (hs : s.host.script = .wr reg v :: rest) (h : WriteCase reg (withScript s rest) t) : StepEffect s t := by
  cases h with
  | ignored => exact withScript_effect s rest
  | refused hh => exact refuse_effect rest _ hh (.inl ⟨reg, v, rest, hs⟩)
  | elen hr hreg w => exact .elen rest v w (hreg ▸ hs) hr
  | padReq hr hreg b => exact .padReq rest v b (hreg ▸ hs) hr
  | padTarget hr hreg w => exact .padTarget rest v w (hreg ▸ hs) hr
  | padFill hr hreg w => exact .padFill rest v w (hreg ▸ hs) hr

theorem ReadCase.effect {s t : State} {reg : Nat} {rest : List HostMove} (hs : s.host.script = .rd reg :: rest)
    (h : ReadCase (withScript s rest) t) : StepEffect s t := by
  cases h with
  | value v => exact .hostOnly { (withScript s rest).host with readValue := some v } rfl
  | ignored => exact .hostOnly { (withScript s rest).host with readValue := none } rfl
  | refused hh =>
    exact StepEffect.refused (s := s) { (withScript s rest).host with readValue := none } rfl _ hh
      (.inr (.inl ⟨reg, rest, hs⟩))

theorem EbufCase.effect {s t : State} {off : Nat} {b : Byte} {rest : List HostMove}
    (hs : s.host.script = .ebufWr off b :: rest) (h : EbufCase off b (withScript s rest) t) : StepEffect s t := by
  cases h with
  | ignored => exact withScript_effect s rest
  | refused hh => exact refuse_effect rest _ hh (.inr (.inr ⟨off, b, rest, hs⟩))
  | written hr ho => exact .ebufByte rest off b hs hr ho

/-- Everything a step can do: a reset, or one of the effects. -/
theorem step_effect {s t : State} (h : step s = .next t) :
    (∃ rest, s.host.script = .reset :: rest ∧ t = resetBlock (withScript s rest)) ∨ StepEffect s t := by
  cases step_case h with
  | block hq h => exact .inr (.block s.host.script (blockStep_case h))
  | idle rest hs h => exact .inr (.block rest (blockStep_case h))
  | waited rest hs hb h => subst h; exact .inr (withScript_effect s rest)
  | command v rest hs i hi h => exact .inr (exec_effect hs hi h)
  | illegal v rest hs h =>
    have ha : hostAccesses s := .inl ⟨0, v, rest, hs⟩
    rcases atIssue_cases h with ⟨-, rfl⟩ | ⟨hh, -, rfl⟩ | ⟨hr, hk⟩
    · exact .inr (withScript_effect s rest)
    · exact .inr (refuse_effect rest _ hh ha)
    · cases hk; exact .inr (refuse_effect rest _ hr.1 ha)
  | write reg v rest hs hr h => subst h; exact .inr ((hostWrite_case reg v _).effect hs)
  | read reg rest hs h => subst h; exact .inr ((hostRead_case reg _).effect hs)
  | ebuf off b rest hs h => subst h; exact .inr ((hostEbufWrite_case off b _).effect hs)
  | reset rest hs h => exact .inl ⟨rest, hs, h⟩

/-- Everything a step can do while the host does not reset the block. -/
theorem step_effect_of_noReset {s t : State} (h : step s = .next t) (hn : ∀ rest, s.host.script ≠ .reset :: rest) :
    StepEffect s t := by
  rcases step_effect h with ⟨rest, hs, -⟩ | he
  · exact absurd hs (hn rest)
  · exact he

/-! ### The invariant's parts, and the three ways a block meets it -/

/-- The invariant after reset. -/
theorem launch_coherent (p : Params) (hs : HostSide) : Coherent (State.launch p hs) where
  ebuf := ⟨Memory.wf_nil, by simp⟩
  table := rfl
  status := ⟨.inl rfl, fun _ => rfl, by simp [Status.reset]⟩
  padbuf := rfl
  idle _ := ⟨rfl, ⟨rfl, rfl, rfl⟩, rfl⟩
  engine _ hi := by cases hi
  run hb := by cases hb

/-- The STATUS of a block that is not halted, from its fields. -/
theorem statusInv_of_not_halted {s : State} (hh : halted s = false)
    (hc : s.status.cause = .none ∨ ∃ c, s.status.cause = .run c) (hd : s.status.done = true → s.status.busy = false)
    (hx : s.status.exit ≠ .argParse) : statusInv s := by
  obtain ⟨hf, hr⟩ := bits_of_not_halted hh
  simp only [statusInv, hf, hr]
  exact ⟨hc, hd, hx⟩

/-- The CAUSE of a block that is not halted is NONE or one of the taxonomy (R41). -/
theorem Coherent.cause_of_not_halted {s : State} (h : Coherent s) (hh : halted s = false) :
    s.status.cause = .none ∨ ∃ c, s.status.cause = .run c := by
  obtain ⟨hf, hr⟩ := bits_of_not_halted hh
  obtain ⟨hc, -, -⟩ := h.status
  simpa only [hf, hr] using hc

theorem Coherent.exit_ne_argParse {s : State} (h : Coherent s) : s.status.exit ≠ .argParse := by
  obtain ⟨-, -, hx⟩ := h.status
  exact hx

/-- With the table invariant, TBL_VALID = 1 and a table that can be used are the same. -/
theorem builtTable_of_tableInv {s : State} (h : tableInv s) (hv : s.status.tblValid = true) :
    builtTable s = some revTable :=
  builtTable_of_tableBuilt (tableBuilt_of_valid h hv)

theorem tblValid_of_builtTable {s : State} (h : builtTable s ≠ none) : s.status.tblValid = true := by
  by_contra hv
  exact h (builtTable_eq_none (by simpa using hv))

theorem runsAt.busy {q : SeqState} {s : State} (h : runsAt q s) : s.status.busy = true := by
  obtain ⟨-, hb, -, -⟩ := h
  exact hb

theorem runsAt.widx {q : SeqState} {s : State} (h : runsAt q s) : s.engine.widx = none := by
  obtain ⟨-, -, hw, -⟩ := h
  exact hw

theorem runsAt.seqState {q : SeqState} {s : State} (h : runsAt q s) : s.regs.seqState = q := by
  obtain ⟨-, -, -, hq⟩ := h
  exact hq

theorem issues.ready {i : Instr} {s : State} (h : issues i s) : ready s := by
  obtain ⟨hr, -⟩ := h
  exact hr

/-- A block that executes no command meets the invariant. -/
theorem Coherent.of_idle {s : State} (he : ebufInv s) (ht : tableInv s) (hs : statusInv s)
    (hp : s.tool.padbuf = none) (hb : s.status.busy = false) (hw : s.engine.widx = none) (hr : released s)
    (ho : outcomeInv s) : Coherent s :=
  ⟨he, ht, hs, hp, fun _ => ⟨hw, hr, ho⟩, fun i hi => (by rw [hw] at hi; cases hi),
    fun hb' => (by rw [hb] at hb'; cases hb')⟩

/-- A block that executes an ENG_CRC32 meets the invariant. -/
theorem Coherent.of_engine {s : State} {i : Dword} (he : ebufInv s) (ht : tableInv s) (hs : statusInv s)
    (hp : s.tool.padbuf = none) (hw : s.engine.widx = some i) (hi : engineInv i s) (hr : released s)
    (ho : outcomeInv s) : Coherent s :=
  ⟨he, ht, hs, hp, fun hb => (by rw [hi.1] at hb; cases hb),
    fun j hj => (by rw [hw] at hj; cases hj; exact ⟨hi, hr, ho⟩), fun _ hw' => (by rw [hw] at hw'; cases hw')⟩

/-- A block that executes a run meets the invariant. -/
theorem Coherent.of_run {s : State} (he : ebufInv s) (ht : tableInv s) (hs : statusInv s)
    (hp : s.tool.padbuf = none) (hb : s.status.busy = true) (hw : s.engine.widx = none) (hr : runInv s) :
    Coherent s :=
  ⟨he, ht, hs, hp, fun hb' => (by rw [hb] at hb'; cases hb'), fun i hi => (by rw [hw] at hi; cases hi),
    fun _ _ => hr⟩

/-! ### What keeps the invariant -/

/-- An engine fault outside a run keeps the invariant's parts together. -/
theorem raiseEngineFault_coherent {s : State} (c : EngineCause) (he : ebufInv s) (ht : tableInv s)
    (hh : halted s = false) (hx : s.status.exit ≠ .argParse) (hp : s.tool.padbuf = none) (hr : released s)
    (ho : outcomeInv s) : Coherent (raiseEngineFault c s) := by
  refine .of_idle he ht ?_ hp rfl rfl hr ho
  simp only [statusInv, raiseEngineFault_status, (bits_of_not_halted hh).2]
  exact ⟨⟨trivial, c, rfl⟩, fun _ => trivial, hx⟩

/-- A successful ENGINE command that ends outside a run keeps the invariant's parts together. -/
theorem completeCommand_coherent {s : State} (he : ebufInv s) (ht : tableInv s) (hh : halted s = false)
    (hx : s.status.exit ≠ .argParse) (hp : s.tool.padbuf = none) (hw : s.engine.widx = none) (hr : released s)
    (ho : outcomeInv s) : Coherent (completeCommand s) :=
  .of_idle he ht (statusInv_of_not_halted hh (.inl rfl) (fun _ => rfl) hx) hp rfl hw hr ho

/-- Other operand registers keep the invariant of a block that executes no command. -/
theorem Coherent.withRegs {s : State} (h : Coherent s) (hb : s.status.busy = false) (r : IfaceRegs)
    (hq : r.seqState = s.regs.seqState) : Coherent { s with regs := r } := by
  obtain ⟨hw, hrel, hout⟩ := h.idle hb
  refine .of_idle h.ebuf h.table h.status h.padbuf hb hw hrel ?_
  simpa only [outcomeInv, hq] using hout

/-- A byte inside EBUF keeps the invariant of a block that executes no command. -/
theorem Coherent.writeEbuf {s : State} (h : Coherent s) (hb : s.status.busy = false) {off : Nat}
    (ho : off < s.params.ebufBytes) (b : Byte) : Coherent { s with ebuf := s.ebuf.write off b } := by
  obtain ⟨hw, hrel, hout⟩ := h.idle hb
  obtain ⟨hwf, hin⟩ := h.ebuf
  refine .of_idle ⟨Memory.wf_write off b hwf, fun c hc => ?_⟩ h.table h.status h.padbuf hb hw hrel hout
  rcases Memory.mem_write hc with rfl | hc
  · exact ho
  · exact hin c hc

/-- A step of a run to a state with the run's invariant keeps the invariant: such a step leaves STATUS, the table and
EBUF. -/
theorem Coherent.runStep {s u : State} (h : Coherent s) {q : SeqState} (hr : runsAt q s)
    (hp : u.params = s.params) (hs : u.status = s.status) (he : u.ebuf = s.ebuf) (ht : u.engine.rt = s.engine.rt)
    (hw : u.engine.widx = none) (hb : u.tool.padbuf = none) (hu : runInv u) : Coherent u := by
  refine .of_run ?_ ?_ ?_ hb (hs ▸ hr.busy) hw hu
  · simpa only [ebufInv, hp, he] using h.ebuf
  · simpa only [tableInv, hs, ht] using h.table
  · simpa only [statusInv, hs] using h.status

/-! ### The block's steps keep the invariant -/

/-- The run's invariant at a known sequencer state. -/
theorem Coherent.runInvAt {s : State} (h : Coherent s) {q : SeqState} (hr : runsAt q s) :
    runInv { s with regs.seqState := q } := by
  obtain ⟨-, hb, hw, rfl⟩ := hr
  exact h.run hb hw

/-- A run always has its table (R114). -/
theorem Coherent.builtTable_of_runsAt {s : State} (h : Coherent s) {q : SeqState} (hr : runsAt q s) :
    builtTable s = some revTable := by
  obtain ⟨htab, -⟩ := h.runInvAt hr
  exact builtTable_of_tableInv h.table htab

/-- An ENG_CRC32 in progress that faults. -/
theorem Coherent.engineFault {s : State} (h : Coherent s) {i : Dword} (hp : enginePending i s) (c : EngineCause) :
    Coherent (raiseEngineFault c s) := by
  obtain ⟨hh, -, hw⟩ := hp
  obtain ⟨-, hrel, hout⟩ := h.engine i hw
  exact raiseEngineFault_coherent c h.ebuf h.table hh h.exit_ne_argParse h.padbuf hrel hout

/-- A word step advances the index by one, which stays within L/4 (R104). -/
theorem Coherent.wordStep {s : State} (h : Coherent s) {l i : Dword} (hc : computesAt l i s)
    (hi : i.toNat < l.toNat / 4) (a : Word) :
    Coherent { s with engine.acc := some a, engine.widx := some (i + 1#64) } := by
  obtain ⟨-, -, hw, hl⟩ := hc
  obtain ⟨⟨hb, htab, -, l', hl', h4, hbound, -⟩, hrel, hout⟩ := h.engine i hw
  obtain rfl : l = l' := by rw [hl] at hl'; cases hl'; rfl
  refine .of_engine h.ebuf h.table h.status h.padbuf rfl ⟨hb, htab, rfl, l, hl, h4, hbound, ?_⟩ hrel hout
  have : l.toNat < 2 ^ 64 := l.isLt
  rw [BitVec.toNat_add_of_lt (by simp; omega)]
  exact hi

theorem Coherent.finalStep {s : State} (h : Coherent s) {l i : Dword} (hc : computesAt l i s) (a : Word) :
    Coherent (completeCommand
      { s with regs.result := some a, engine.acc := none, engine.widx := none }) := by
  obtain ⟨hh, -, hw, -⟩ := hc
  obtain ⟨-, hrel, hout⟩ := h.engine i hw
  exact completeCommand_coherent h.ebuf h.table hh h.exit_ne_argParse h.padbuf rfl hrel hout

/-- The end of a run releases its handles and leaves SEQ_STATE at DONE (R125). -/
theorem Coherent.doneEnds {s : State} (h : Coherent s) (hr : runsAt .done s) :
    Coherent { s with
      tool.rdOpen := false, tool.apOpen := false, status.cause := .none, status.exit := .success
      status.busy := false, status.done := true } := by
  obtain ⟨-, -, -, -, himg⟩ := h.runInvAt hr
  obtain ⟨hh, -, hw, hq⟩ := hr
  refine .of_idle h.ebuf h.table (statusInv_of_not_halted hh (.inl rfl) (fun _ => rfl) (by simp)) h.padbuf rfl hw
    ⟨rfl, rfl, himg⟩ ?_
  simp only [outcomeInv, hq]

/-- The checks of SIZE_VALIDATE are what `validated` says from READ_BUFFER on (R117). -/
theorem validated_of_checks {s : State} {file : List Byte} (hx : exceedsMaxImage s.params file.length = false)
    (hn : file.length % 4 = 0)
    (hp : ∀ target fill, latchedPadding s = .ok (some (target, fill)) → padOk target fill file.length = true) :
    validated { s with regs.imgSize := some (BitVec.ofNat 64 file.length), regs.seqState := .readBuffer } file :=
  ⟨rfl, hn, hx, fun target fill h1 h2 h3 => hp target fill (latchedPadding_some.mpr ⟨h1, h2, h3⟩)⟩

/-- A step of the block keeps the invariant: its cases are the rows of R104 and R130, and what each leaves is what the
invariant says of the next sequencer state. -/
theorem BlockCase.coherent {s t : State} (hc : BlockCase s t) (h : Coherent s) : Coherent t := by
  cases hc with
  | stays => exact h
  | engineFault i c hp => exact h.engineFault hp c
  | wordStep l i tab a w hc hi => exact h.wordStep hc hi _
  | finalStep l i tab a hc => exact h.finalStep hc _
  | openReadFails hr => exact h.failExit hr _ rfl rfl rfl rfl hr.widx
  | openReadOpens hr file hf =>
    obtain ⟨htab, hlatch, -, hap, himg⟩ := h.runInvAt hr
    exact h.runStep hr rfl rfl rfl rfl hr.widx h.padbuf
      ⟨htab, hlatch, rfl, hap, himg, Option.isSome_iff_exists.mpr ⟨file, hf⟩⟩
  | sizeStuck hr =>
    refine h.runStep hr rfl rfl rfl rfl hr.widx h.padbuf ?_
    simp only [runInv, hr.seqState]
    exact h.runInvAt hr
  | sizeBadPadding hr => exact h.failExit hr _ rfl rfl rfl rfl hr.widx
  | sizeUnaligned hr => exact h.failExit hr _ rfl rfl rfl rfl hr.widx
  | sizeValid hr file hf hx hn hp =>
    obtain ⟨htab, hlatch, hrd, hap, himg, -⟩ := h.runInvAt hr
    exact h.runStep hr rfl rfl rfl rfl hr.widx h.padbuf
      ⟨htab, hlatch, hrd, hap, himg, file, hf, validated_of_checks hx hn hp⟩
  | readFails hr => exact h.failExit hr _ rfl rfl rfl rfl hr.widx
  | readReads hr file hf =>
    obtain ⟨htab, hlatch, hrd, hap, -, file', hf', hv⟩ := h.runInvAt hr
    obtain rfl : file = file' := Option.some_inj.mp (hf.symm.trans hf')
    exact h.runStep hr rfl rfl rfl rfl hr.widx h.padbuf ⟨htab, hlatch, hrd, hap, file, hf, rfl, hv⟩
  | computeFaults hr hnone => rw [h.builtTable_of_runsAt hr] at hnone; cases hnone
  | computes hr img hi tab hsome =>
    obtain ⟨htab, hlatch, hrd, hap, file, hf, himg, hv⟩ := h.runInvAt hr
    obtain rfl : img = file := Option.some_inj.mp (hi.symm.trans himg)
    obtain rfl : revTable = tab := Option.some_inj.mp ((h.builtTable_of_runsAt hr).symm.trans hsome)
    exact h.runStep hr rfl rfl rfl rfl rfl h.padbuf
      ⟨htab, hlatch, hrd, hap, rfl, img, hf, hv, congrArg some (revw_accAfter _ img)⟩
  | zeroCrcFails hr => exact h.failExit hr _ rfl rfl rfl rfl hr.widx
  | zeroCrcPasses hr crc padReq hc hp hn =>
    obtain ⟨htab, hlatch, hrd, hap, himg, file, hf, hv, hcrc⟩ := h.runInvAt hr
    refine h.runStep hr rfl rfl rfl rfl hr.widx h.padbuf
      ⟨htab, hlatch, hrd, hap, himg, file, hf, hv, hcrc, fun hfalse hzero => hn ⟨?_, ?_⟩⟩
    · exact (Option.some_inj.mp (hc.symm.trans hcrc)).trans hzero
    · exact Option.some_inj.mp (hp.symm.trans hfalse)
  | openAppendFails hr => exact h.failExit hr _ rfl rfl rfl rfl hr.widx
  | openAppendOpens hr padReq hp =>
    obtain ⟨htab, hlatch, hrd, -, himg, file, hf, hv, hcrc, -⟩ := h.runInvAt hr
    refine h.runStep hr rfl rfl rfl rfl hr.widx h.padbuf ?_
    cases padReq with
    | true => exact ⟨htab, hlatch, hrd, rfl, himg, hp, file, hf, hv⟩
    | false =>
      exact ⟨htab, hlatch, hrd, rfl, himg, Option.isSome_iff_exists.mpr ⟨_, hf⟩,
        Option.isSome_iff_exists.mpr ⟨_, hcrc⟩⟩
  | padFaults hr hnone => rw [h.builtTable_of_runsAt hr] at hnone; cases hnone
  | padWrites hr =>
    obtain ⟨htab, hlatch, hrd, hap, himg, -⟩ := h.runInvAt hr
    exact h.runStep hr rfl rfl rfl rfl rfl rfl ⟨htab, hlatch, hrd, hap, himg, rfl, rfl⟩
  | padShort hr => exact h.failExit hr _ rfl rfl rfl rfl rfl
  | crcWrites hr =>
    obtain ⟨htab, hlatch, hrd, hap, himg, -⟩ := h.runInvAt hr
    exact h.runStep hr rfl rfl rfl rfl hr.widx h.padbuf ⟨htab, hlatch, hrd, hap, himg⟩
  | crcShort hr => exact h.failExit hr _ rfl rfl rfl rfl hr.widx
  | doneEnds hr => exact h.doneEnds hr

/-! ### The host's moves keep the invariant -/

theorem Coherent.withScript {s : State} (h : Coherent s) (rest : List HostMove) :
    Coherent (Machine.withScript s rest) :=
  h.withHost _ rfl

/-- ENG_INIT builds the table on a ready block (R103). -/
theorem Coherent.engInit {s : State} (h : Coherent s) (hr : ready s) :
    Coherent (completeCommand (buildTable (beginCommand s))) := by
  obtain ⟨hw, hrel, hout⟩ := h.idle hr.2
  exact completeCommand_coherent h.ebuf rfl hr.1 h.exit_ne_argParse h.padbuf hw hrel hout

theorem Coherent.crcFaults {s : State} (h : Coherent s) (hr : ready s) (c : EngineCause) :
    Coherent (raiseEngineFault c (beginCommand s)) := by
  obtain ⟨-, hrel, hout⟩ := h.idle hr.2
  exact raiseEngineFault_coherent c h.ebuf h.table hr.1 h.exit_ne_argParse h.padbuf hrel hout

/-- A command that has begun on a ready block keeps CAUSE and EXIT. -/
theorem Coherent.beginCommand_statusInv {s : State} (h : Coherent s) (hr : ready s) : statusInv (beginCommand s) :=
  statusInv_of_not_halted (s := beginCommand s) hr.1 (h.cause_of_not_halted hr.1) (by simp) h.exit_ne_argParse

theorem Coherent.crcStarts {s : State} (h : Coherent s) (hr : ready s) {l : Dword} (hl : s.regs.elen = some l)
    (htab : builtTable s ≠ none) (h4 : l.toNat % 4 = 0) (hb : l.toNat ≤ s.params.ebufBytes) :
    Coherent
      { beginCommand s with
        engine.acc := some Config.initValue, engine.widx := some 0#64 } := by
  obtain ⟨-, hrel, hout⟩ := h.idle hr.2
  exact .of_engine h.ebuf h.table (h.beginCommand_statusInv hr) h.padbuf rfl
    ⟨rfl, tblValid_of_builtTable htab, rfl, l, hl, h4, hb, Nat.zero_le _⟩ hrel hout

/-- START latches the descriptor, builds the table and goes to OPEN_READ with the handles released (R114). -/
theorem Coherent.startRun {s : State} (h : Coherent s) (hr : ready s) (ops : ToolOperands) :
    Coherent (Machine.startRun ops s) := by
  obtain ⟨hw, hrel, -⟩ := h.idle hr.2
  have hs := h.beginCommand_statusInv hr
  obtain ⟨_ | ⟨target, fill⟩⟩ := ops
  · exact .of_run h.ebuf rfl hs h.padbuf rfl hw ⟨rfl, .inl rfl, hrel⟩
  · exact .of_run h.ebuf rfl hs h.padbuf rfl hw ⟨rfl, .inr ⟨rfl, rfl, rfl⟩, hrel⟩

/-- Every effect of a step keeps the invariant. -/
theorem StepEffect.coherent {s t : State} (he : StepEffect s t) (h : Coherent s) : Coherent t := by
  cases he with
  | block rest hc => exact hc.coherent (h.withScript rest)
  | hostOnly hs hf => exact h.withHost hs hf
  | refused hs hf c hh => exact (h.withHost hs hf).refuse hh c
  | elen rest v w hs hr => exact (h.withScript rest).withRegs hr.2 _ rfl
  | padReq rest v b hs hr => exact (h.withScript rest).withRegs hr.2 _ rfl
  | padTarget rest v w hs hr => exact (h.withScript rest).withRegs hr.2 _ rfl
  | padFill rest v w hs hr => exact (h.withScript rest).withRegs hr.2 _ rfl
  | ebufByte rest off b hs hr ho => exact (h.withScript rest).writeEbuf hr.2 ho b
  | engInit rest hi => exact (h.withScript rest).engInit hi.ready
  | crcFaults rest hi c => exact (h.withScript rest).crcFaults hi.ready c
  | crcStarts rest hi l hl htab h4 hb => exact (h.withScript rest).crcStarts hi.ready hl htab h4 hb
  | runStartsPadded rest hi => exact (h.withScript rest).startRun hi.ready _
  | runStartsUnpadded rest hi => exact (h.withScript rest).startRun hi.ready _

/-- Settles O51: a reset leaves a launch, and every other step has an effect that keeps the invariant. -/
theorem stepKeepsTheInvariant : Obligations.StepKeepsTheInvariant := by
  intro s t h hstep
  rcases step_effect hstep with ⟨rest, -, rfl⟩ | he
  · exact launch_coherent s.params (Machine.withScript s rest).host
  · exact he.coherent h

/-! ### The STATUS word (R23) -/

/-- The five lowest bits of the word are the flags. -/
theorem Status.getLsbD_word_flags (st : Status) :
    st.word.getLsbD 0 = st.busy ∧ st.word.getLsbD 1 = st.done ∧ st.word.getLsbD 2 = st.fault ∧
      st.word.getLsbD 3 = st.refused ∧ st.word.getLsbD 4 = st.tblValid := by
  simp only [Status.word, BitVec.getLsbD_append, BitVec.getLsbD_ofBool]
  simp

/-- Above the flags lie the reserved bits 31:19, EXIT, CAUSE and the reserved bits 7:5. -/
theorem Status.extract_word_above_flags (st : Status) {start : Nat} (len : Nat) (h : 5 ≤ start) :
    st.word.extractLsb' start len = (0#13 ++ st.exit.code ++ st.cause.code ++ 0#3).extractLsb' (start - 5) len := by
  change BitVec.extractLsb' (n := 13 + 3 + 8 + 3 + 1 + 1 + 1 + 1 + 1) start len (_ ++ _) = _
  simp (disch := omega) only [BitVec.extractLsb'_append_eq_of_le]
  rfl

/-- Settles O13: the flags are the word's five lowest bits, and each other field is a slice of what lies above. -/
theorem statusWordHasTheFieldsOfR23 : Obligations.StatusWordHasTheFieldsOfR23 := by
  intro st
  obtain ⟨hbusy, hdone, hfault, hrefused, htbl⟩ := st.getLsbD_word_flags
  refine ⟨hbusy, hdone, hfault, hrefused, htbl, ?_, ?_, ?_, ?_⟩
  all_goals rw [st.extract_word_above_flags _ (by decide)]
  · exact BitVec.extractLsb'_append_eq_right
  · rw [BitVec.extractLsb'_append_eq_of_le (by decide)]
    exact BitVec.extractLsb'_append_eq_right
  · simp (disch := decide) only [BitVec.extractLsb'_append_eq_of_le]
    exact BitVec.extractLsb'_append_eq_right
  · simp (disch := decide) only [BitVec.extractLsb'_append_eq_of_le]
    exact BitVec.extractLsb'_eq_self

/-! ### The host's accesses to a block (R37) -/

theorem refuseAccess_of_not_halted {s : State} (h : halted s = false) :
    refuseAccess s = refuse .illegalAccess s := by
  simp [refuseAccess, h]

theorem hostRead_of_value {s : State} {reg : Nat} {v : Dword} (h : readRegister s reg = some v) :
    hostRead reg s = { s with host.readValue := some v } := by
  simp only [hostRead, h]

theorem hostRead_refused {s : State} {reg : Nat} (hh : halted s = false) (h : readRegister s reg = none) :
    hostRead reg s = refuse .illegalAccess { s with host.readValue := none } := by
  simp only [hostRead, h]
  exact refuseAccess_of_not_halted hh

theorem readRegister_number (s : State) (r : Reg) : readRegister s r.number = regValue s r := by
  simp [readRegister]

/-- Register numbers from 11 on are reserved (R21). -/
theorem ofNumber_reserved {n : Nat} (h : 11 ≤ n) : Reg.ofNumber? n = none := by
  refine Option.eq_none_iff_forall_ne_some.mpr fun r hr => ?_
  have hn : n = r.number := Reg.eq_number hr
  have hle : r.number ≤ 10 := by cases r <;> decide
  omega

theorem hostWrite_halted (reg : Nat) (v : Dword) {s : State} (h : halted s = true) : hostWrite reg v s = s := by
  rw [hostWrite, if_pos h]

theorem hostWrite_busy (reg : Nat) (v : Dword) {s : State} (hh : halted s = false) (hb : s.status.busy = true) :
    hostWrite reg v s = refuse .illegalAccess s := by
  simp [hostWrite, hh, hb]

theorem hostWrite_stored {s t : State} {reg : Nat} {v : Dword} (hr : ready s) (h : writeRegister reg v s = some t) :
    hostWrite reg v s = t := by
  obtain ⟨hh, hb⟩ := hr
  simp [hostWrite, hh, hb, h]

/-- A write no register takes is refused, whether or not the block is busy (R37 (a) to (d)). -/
theorem hostWrite_rejected {s : State} {reg : Nat} {v : Dword} (hh : halted s = false)
    (h : writeRegister reg v s = none) : hostWrite reg v s = refuse .illegalAccess s := by
  simp [hostWrite, hh, h]

theorem hostEbufWrite_halted (off : Nat) (b : Byte) {s : State} (h : halted s = true) :
    hostEbufWrite off b s = s := by
  rw [hostEbufWrite, if_pos h]

theorem hostEbufWrite_busy (off : Nat) (b : Byte) {s : State} (hh : halted s = false)
    (hb : s.status.busy = true) : hostEbufWrite off b s = refuse .illegalAccess s := by
  simp [hostEbufWrite, hh, hb]

/-- A write beyond EBUF is refused, whether or not the block is busy (R37 (d), (f)). -/
theorem hostEbufWrite_outside {off : Nat} (b : Byte) {s : State} (hh : halted s = false)
    (ho : s.params.ebufBytes ≤ off) : hostEbufWrite off b s = refuse .illegalAccess s := by
  simp [hostEbufWrite, hh, ho]

theorem hostEbufWrite_written {off : Nat} (b : Byte) {s : State} (hr : ready s) (ho : off < s.params.ebufBytes) :
    hostEbufWrite off b s = { s with ebuf := s.ebuf.write off b } := by
  obtain ⟨hh, hb⟩ := hr
  simp [hostEbufWrite, hh, hb, Nat.not_le.mpr ho]

/-! ### Writes of CMD on a block that takes no command (R73 (d), (e)) -/

theorem commandWrite_halted (w : Word) {s : State} (h : halted s = true) : commandWrite w s = .next s := by
  unfold commandWrite
  split
  · exact exec_halted _ h
  · exact atIssue_halted _ h

theorem commandWrite_busy (w : Word) {s : State} (h : halted s = false) (hb : s.status.busy = true) :
    commandWrite w s = .next (refuse .illegalAccess s) := by
  unfold commandWrite
  split
  · exact exec_busy _ h hb
  · exact atIssue_busy _ h hb

/-! ### Refused and accepted accesses -/

theorem writeRegister_reserved {reg : Nat} (v : Dword) (s : State) (h : 11 ≤ reg) :
    writeRegister reg v s = none := by
  simp only [writeRegister, ofNumber_reserved h]

/-- No write stores into a register the host may only read (R21). -/
theorem writeRegister_readOnly {r : Reg} (v : Dword) (s : State) (h : r.writable = false) :
    writeRegister r.number v s = none := by
  cases r with
  | cmd | elen | padReq | padTarget | padFill => cases h
  | status | result | toolCrc | padLen | imgSize | seqState => rfl

/-- PAD_REQ takes 0 and 1 only (R26). -/
theorem writeRegister_padReq_other {v : Dword} (s : State) (h0 : v ≠ 0#64) (h1 : v ≠ 1#64) :
    writeRegister 4 v s = none := by
  simp [writeRegister, Reg.ofNumber?, h0, h1]

/-- The registers R37 (b) protects are those the host may only read. -/
theorem writable_of_mem_readOnly {r : Reg}
    (h : r ∈ [Reg.status, .result, .toolCrc, .padLen, .imgSize, .seqState]) : r.writable = false := by
  cases r with
  | cmd | elen | padReq | padTarget | padFill => simp at h
  | status | result | toolCrc | padLen | imgSize | seqState => rfl

/-- Settles O8: each case of R37 is one of the host's accesses that no register or byte takes. -/
theorem refusedAccessesChangeNothingElse : Obligations.RefusedAccessesChangeNothingElse := by
  intro s
  refine ⟨fun hh => ⟨fun reg v h => ?_, fun reg h => ?_, fun r v h => ?_, fun v h0 h1 => ?_,
    fun hb => ⟨fun reg v => ?_, fun off b => ?_, fun w => ?_⟩, fun r h => ?_, fun off b h => ?_⟩,
    fun hh => ⟨fun reg v => ?_, fun off b => ?_, fun w => ?_, fun r v h => ?_⟩⟩
  · exact hostWrite_rejected hh (writeRegister_reserved v s h)
  · exact hostRead_refused hh (by rw [readRegister, ofNumber_reserved h]; rfl)
  · exact hostWrite_rejected hh (writeRegister_readOnly v s (writable_of_mem_readOnly h))
  · exact hostWrite_rejected hh (writeRegister_padReq_other s h0 h1)
  · exact hostWrite_busy reg v hh hb
  · exact hostEbufWrite_busy off b hh hb
  · exact commandWrite_busy w hh hb
  · exact hostRead_refused hh ((readRegister_number s r).trans h)
  · exact hostEbufWrite_outside b hh h
  · exact hostWrite_halted reg v hh
  · exact hostEbufWrite_halted off b hh
  · exact commandWrite_halted w hh
  · exact hostRead_of_value ((readRegister_number s r).trans h)

/-- Settles O9: each register that holds an operand stores the value. -/
theorem acceptedWritesStoreTheirValue : Obligations.AcceptedWritesStoreTheirValue :=
  fun _ _ hr => ⟨hostWrite_stored hr rfl, hostWrite_stored hr rfl, hostWrite_stored hr rfl, hostWrite_stored hr rfl,
    hostWrite_stored hr rfl⟩

/-- Settles O10: a read returns `regValue` of the register its number names. -/
theorem readsReturnTheRegister : Obligations.ReadsReturnTheRegister := by
  intro s
  have hread (r : Reg) {v : Dword} (h : regValue s r = some v) :
      hostRead r.number s = { s with host.readValue := some v } :=
    hostRead_of_value ((readRegister_number s r).trans h)
  exact ⟨hread .cmd rfl, hread .status rfl, fun v h => hread .result (by rw [regValue, h]; rfl),
    fun v h => hread .elen h, fun h => hread .padReq (by rw [regValue, h]; rfl),
    fun h => hread .padReq (by rw [regValue, h]; rfl), fun v h => hread .padTarget h, fun v h => hread .padFill h,
    fun v h => hread .toolCrc (by rw [regValue, h]; rfl), fun v h => hread .padLen h, fun v h => hread .imgSize h,
    hread .seqState rfl⟩

/-! ### Well-formed moves -/

/-- A ready block stores a well-formed write of a register other than CMD, which changes the registers only. -/
theorem writeRegister_of_wellFormed {reg : Nat} {r : Reg} {v : Dword} (s : State) (hreg : Reg.ofNumber? reg = some r)
    (hcmd : r ≠ .cmd) (hw : wellFormedWrite r v = true) :
    ∃ regs, writeRegister reg v s = some { s with regs := regs } := by
  cases r with
  | cmd => exact absurd rfl hcmd
  | elen | padTarget | padFill => exact ⟨_, by simp only [writeRegister, hreg]; rfl⟩
  | padReq =>
    have hv : v = 0#64 ∨ v = 1#64 := by simpa [wellFormedWrite] using hw
    rcases hv with rfl | rfl <;> exact ⟨_, by simp only [writeRegister, hreg]; rfl⟩
  | status | result | toolCrc | padLen | imgSize | seqState => cases hw

/-- Settles O12: on a ready block every well-formed move but a write of CMD is a store, a read or no access at all. -/
theorem wellFormedMovesAreNotRefused : Obligations.WellFormedMovesAreNotRefused := by
  intro s m hr hwf hvalue hcmd
  have hh : halted s = false := hr.1
  cases m with
  | wr reg v =>
    have hreg : reg ≠ 0 := fun h => hcmd v (by rw [h])
    cases hn : Reg.ofNumber? reg with
    | none => simp [HostMove.wellFormed, hn] at hwf
    | some r =>
      have hne : r ≠ .cmd := fun h => hreg (by rw [Reg.eq_number hn, h]; rfl)
      obtain ⟨regs, hw⟩ :=
        writeRegister_of_wellFormed (v := v) s hn hne (by simpa [HostMove.wellFormed, hn] using hwf)
      exact ⟨{ s with regs := regs }, by rw [hostMove, if_neg hreg, hostWrite_stored hr hw], hh⟩
  | rd reg =>
    obtain ⟨v, hv⟩ := Option.isSome_iff_exists.mp (hvalue reg rfl)
    exact ⟨{ s with host.readValue := some v }, by rw [hostMove, hostRead_of_value hv], hh⟩
  | ebufWr off b =>
    have ho : off < s.params.ebufBytes := by simpa [HostMove.wellFormed] using hwf
    exact ⟨{ s with ebuf := s.ebuf.write off b }, by rw [hostMove, hostEbufWrite_written b hr ho], hh⟩
  | wait => exact ⟨s, rfl, hh⟩
  | idle => exact ⟨s, blockStep_of_idle hr.2, hh⟩
  | reset => exact ⟨resetBlock s, rfl, rfl⟩

/-! ### Who sets FAULT and REFUSED (R41) -/

/-- No step of the block sets or clears REFUSED. -/
theorem BlockCase.refused_eq {s t : State} (hc : BlockCase s t) : t.status.refused = s.status.refused := by
  cases hc <;> rfl

/-- From the invariant, a step of the block sets FAULT only while an ENG_CRC32 computes: a run has its table. -/
theorem BlockCase.fault_eq {s t : State} (hc : BlockCase s t) (h : Coherent s) :
    t.status.fault = s.status.fault ∨ ∃ l i, computesAt l i s := by
  cases hc with
  | engineFault i c hp =>
    obtain ⟨hh, hb, hw⟩ := hp
    obtain ⟨⟨-, -, -, l, hl, -⟩, -, -⟩ := h.engine i hw
    exact .inr ⟨l, i, hh, hb, hw, hl⟩
  | computeFaults hr hnone => rw [h.builtTable_of_runsAt hr] at hnone; cases hnone
  | padFaults hr hnone => rw [h.builtTable_of_runsAt hr] at hnone; cases hnone
  | _ => exact .inl rfl

/-- A step of the block sets FAULT only by an engine fault (R151). -/
theorem BlockCase.fault_cases {s t : State} (hc : BlockCase s t) :
    t.status.fault = s.status.fault ∨
      t.status.fault = true ∧ (∃ c, t.status.cause = .engine c) ∧ t.status.busy = false := by
  cases hc with
  | engineFault | computeFaults | padFaults => exact .inr ⟨rfl, ⟨_, rfl⟩, rfl⟩
  | _ => exact .inl rfl

/-- FAULT stays as it is or is set by an engine fault. -/
theorem StepEffect.fault_cases {s t : State} (he : StepEffect s t) :
    t.status.fault = s.status.fault ∨
      t.status.fault = true ∧ (∃ c, t.status.cause = .engine c) ∧ t.status.busy = false := by
  cases he with
  | block rest hc => exact hc.fault_cases
  | crcFaults => exact .inr ⟨rfl, ⟨_, rfl⟩, rfl⟩
  | _ => exact .inl rfl

/-- From the invariant, FAULT stays as it is or an ENG_CRC32 is issued or in progress (R151). -/
theorem StepEffect.fault_source {s t : State} (he : StepEffect s t) (h : Coherent s) :
    t.status.fault = s.status.fault ∨ issues .engCrc32 s ∨ ∃ l i, computesAt l i s := by
  cases he with
  | block rest hc => exact (hc.fault_eq (h.withScript rest)).imp_right .inr
  | crcFaults rest hi => exact .inr (.inl hi)
  | _ => exact .inl rfl

/-- REFUSED stays as it is or is set by the refusal of what the host does in the step (R37, R73). -/
theorem StepEffect.refused_cases {s t : State} (he : StepEffect s t) :
    t.status.refused = s.status.refused ∨
      t.status.refused = true ∧ (∃ c, t.status.cause = .refusal c) ∧ hostAccesses s := by
  cases he with
  | block rest hc => exact .inl hc.refused_eq
  | refused hs hf c hh ha => exact .inr ⟨rfl, ⟨c, rfl⟩, ha⟩
  | _ => exact .inl rfl

/-- A command's issue is an access of the host. -/
theorem issues.hostAccesses {i : Instr} {s : State} (h : issues i s) : Machine.hostAccesses s := by
  obtain ⟨-, v, rest, hs, -⟩ := h
  exact .inl ⟨0, v, rest, hs⟩

/-- No ENG_CRC32 computes while WIDX holds no value. -/
theorem not_computesAt_of_widx {s : State} (hw : s.engine.widx = none) : ¬∃ l i, computesAt l i s := by
  rintro ⟨l, i, -, -, hi, -⟩
  rw [hw] at hi
  cases hi

/-- Settles O43: FAULT and REFUSED stay as they are but for an engine fault and a refusal, whose sources are an
ENG_CRC32 and an access of the host. -/
theorem faultAndRefusedAreSticky : Obligations.FaultAndRefusedAreSticky := by
  intro s t hstep hreset
  have he := step_effect_of_noReset hstep hreset
  refine ⟨fun hf => ?_, fun hr => ?_, fun hf ht => ?_, fun h hf ht => ?_, fun hr ht => ?_, fun h hw ha => ⟨?_, ?_⟩,
    fun u h hw hb => ?_, fun c => rfl⟩
  · rcases he.fault_cases with heq | ⟨ht, -⟩
    · rw [heq, hf]
    · exact ht
  · rcases he.refused_cases with heq | ⟨ht, -⟩
    · rw [heq, hr]
    · exact ht
  · rcases he.fault_cases with heq | ⟨-, ⟨c, hc⟩, hb⟩
    · rw [heq, hf] at ht; cases ht
    · exact ⟨c, hc, hb⟩
  · rcases he.fault_source h with heq | hsource
    · rw [heq, hf] at ht; cases ht
    · exact hsource
  · rcases he.refused_cases with heq | ⟨-, hsource⟩
    · rw [heq, hr] at ht; cases ht
    · exact hsource
  · rcases he.fault_source h with heq | hi | hc
    · exact heq
    · exact absurd hi.hostAccesses ha
    · exact absurd hc (not_computesAt_of_widx hw)
  · rcases he.refused_cases with heq | ⟨-, -, haccess⟩
    · exact heq
    · exact absurd haccess ha
  · have hc := blockStep_case hb
    exact ⟨(hc.fault_eq h).resolve_right (not_computesAt_of_widx hw), hc.refused_eq⟩

/-! ### Who writes each element -/

/-- RESULT: the final step of ENG_CRC32 (R24). -/
theorem StepEffect.result_writer {s t : State} (he : StepEffect s t) (hne : t.regs.result ≠ s.regs.result) :
    ∃ l i, computesAt l i s ∧ i.toNat = l.toNat / 4 := by
  cases he with
  | block rest hc =>
    cases hc with
    | finalStep l i tab a hcomp hi => exact ⟨l, i, hcomp, hi⟩
    | _ => exact absurd rfl hne
  | _ => exact absurd rfl hne

/-- No step of the block writes an operand register (R25 to R28). -/
theorem BlockCase.operands_eq {s t : State} (hc : BlockCase s t) :
    t.regs.elen = s.regs.elen ∧ t.regs.padReq = s.regs.padReq ∧ t.regs.padTarget = s.regs.padTarget ∧
      t.regs.padFill = s.regs.padFill := by
  cases hc <;> exact ⟨rfl, rfl, rfl, rfl⟩

theorem BlockCase.ebuf_eq {s t : State} (hc : BlockCase s t) : t.ebuf = s.ebuf := by
  cases hc <;> rfl

/-- No step of the block writes the Reversal Table or TBL_VALID (R35, R36). -/
theorem BlockCase.table_eq {s t : State} (hc : BlockCase s t) :
    t.engine.rt = s.engine.rt ∧ t.status.tblValid = s.status.tblValid := by
  cases hc <;> exact ⟨rfl, rfl⟩

/-- No step of the block writes the latched descriptor (R38). -/
theorem BlockCase.latched_eq {s t : State} (hc : BlockCase s t) :
    t.tool.runPadReq = s.tool.runPadReq ∧ t.tool.runTarget = s.tool.runTarget ∧
      t.tool.runFill = s.tool.runFill := by
  cases hc <;> exact ⟨rfl, rfl, rfl⟩

theorem BlockCase.params_eq {s t : State} (hc : BlockCase s t) : t.params = s.params := by
  cases hc <;> rfl

theorem StepEffect.params_eq {s t : State} (he : StepEffect s t) : t.params = s.params := by
  cases he with
  | block rest hc => exact hc.params_eq
  | _ => rfl

/-- The host's next move writes register number `reg` of a ready block. -/
def hostStores (reg : Nat) (s : State) : Prop := ∃ v rest, s.host.script = .wr reg v :: rest ∧ ready s

/-- Each operand register: the host's write to it (R25 to R28). -/
theorem StepEffect.operand_writers {s t : State} (he : StepEffect s t) :
    (t.regs.elen ≠ s.regs.elen → hostStores 3 s) ∧ (t.regs.padReq ≠ s.regs.padReq → hostStores 4 s) ∧
      (t.regs.padTarget ≠ s.regs.padTarget → hostStores 5 s) ∧
      (t.regs.padFill ≠ s.regs.padFill → hostStores 6 s) := by
  cases he with
  | block rest hc =>
    obtain ⟨helen, hreq, htarget, hfill⟩ := hc.operands_eq
    exact ⟨absurd helen, absurd hreq, absurd htarget, absurd hfill⟩
  | elen rest v w hs hr => exact ⟨fun _ => ⟨v, rest, hs, hr⟩, absurd rfl, absurd rfl, absurd rfl⟩
  | padReq rest v b hs hr => exact ⟨absurd rfl, fun _ => ⟨v, rest, hs, hr⟩, absurd rfl, absurd rfl⟩
  | padTarget rest v w hs hr => exact ⟨absurd rfl, absurd rfl, fun _ => ⟨v, rest, hs, hr⟩, absurd rfl⟩
  | padFill rest v w hs hr => exact ⟨absurd rfl, absurd rfl, absurd rfl, fun _ => ⟨v, rest, hs, hr⟩⟩
  | _ => exact ⟨absurd rfl, absurd rfl, absurd rfl, absurd rfl⟩

/-- EBUF: the host's write of a byte (R46). -/
theorem StepEffect.ebuf_writer {s t : State} (he : StepEffect s t) (hne : t.ebuf ≠ s.ebuf) :
    ∃ off b rest, s.host.script = .ebufWr off b :: rest ∧ ready s := by
  cases he with
  | block rest hc => exact absurd hc.ebuf_eq hne
  | ebufByte rest off b hs hr => exact ⟨off, b, rest, hs, hr⟩
  | _ => exact absurd rfl hne

/-- RT and TBL_VALID: ENG_INIT and TOOL_RUN, which build the table (R35, R36). -/
theorem StepEffect.table_writer {s t : State} (he : StepEffect s t)
    (hne : t.engine.rt ≠ s.engine.rt ∨ t.status.tblValid ≠ s.status.tblValid) :
    tableBuilt t ∧ (issues .engInit s ∨ issues .toolRun s) := by
  cases he with
  | block rest hc =>
    obtain ⟨hrt, htbl⟩ := hc.table_eq
    exact hne.elim (absurd hrt) (absurd htbl)
  | engInit rest hi => exact ⟨⟨rfl, rfl⟩, .inl hi⟩
  | runStartsPadded rest hi => exact ⟨⟨rfl, rfl⟩, .inr hi⟩
  | runStartsUnpadded rest hi => exact ⟨⟨rfl, rfl⟩, .inr hi⟩
  | _ => exact hne.elim (absurd rfl) (absurd rfl)

/-- TOOL_CRC: COMPUTE_CRC and PAD (R29). -/
theorem StepEffect.toolCrc_writer {s t : State} (he : StepEffect s t) (hne : t.regs.toolCrc ≠ s.regs.toolCrc) :
    runsAt .computeCrc s ∨ runsAt .pad s := by
  cases he with
  | block rest hc =>
    cases hc with
    | computes hr => exact .inl hr
    | padWrites hr => exact .inr hr
    | padShort hr => exact .inr hr
    | _ => exact absurd rfl hne
  | _ => exact absurd rfl hne

/-- IMG_SIZE: SIZE_VALIDATE (R31). -/
theorem StepEffect.imgSize_writer {s t : State} (he : StepEffect s t) (hne : t.regs.imgSize ≠ s.regs.imgSize) :
    runsAt .sizeValidate s := by
  cases he with
  | block rest hc =>
    cases hc with
    | sizeStuck hr => exact hr
    | sizeBadPadding hr => exact hr
    | sizeUnaligned hr => exact hr
    | sizeValid hr => exact hr
    | _ => exact absurd rfl hne
  | _ => exact absurd rfl hne

/-- PAD_LEN: PAD, and the issue of a TOOL_RUN without padding (R30). -/
theorem StepEffect.padLen_writer {s t : State} (he : StepEffect s t) (hne : t.regs.padLen ≠ s.regs.padLen) :
    runsAt .pad s ∨ issues .toolRun s := by
  cases he with
  | block rest hc =>
    cases hc with
    | padFaults hr => exact .inl hr
    | padWrites hr => exact .inl hr
    | padShort hr => exact .inl hr
    | _ => exact absurd rfl hne
  | runStartsUnpadded rest hi => exact .inr hi
  | _ => exact absurd rfl hne

/-- The latched descriptor: the issue of TOOL_RUN (R38). -/
theorem StepEffect.latched_writer {s t : State} (he : StepEffect s t)
    (hne : t.tool.runPadReq ≠ s.tool.runPadReq ∨ t.tool.runTarget ≠ s.tool.runTarget ∨
      t.tool.runFill ≠ s.tool.runFill) : issues .toolRun s := by
  cases he with
  | block rest hc =>
    obtain ⟨hreq, htarget, hfill⟩ := hc.latched_eq
    exact hne.elim (absurd hreq) (Or.elim · (absurd htarget) (absurd hfill))
  | runStartsPadded rest hi => exact hi
  | runStartsUnpadded rest hi => exact hi
  | _ => exact hne.elim (absurd rfl) (Or.elim · (absurd rfl) (absurd rfl))

/-! ### The handle flags (R39) -/

/-- What a step can do to the handle flags: a run ends and clears both, OPEN_READ sets RD_OPEN, OPEN_APPEND sets
AP_OPEN, or both stay. -/
inductive HandleCase (s t : State) : Prop
  | ends (h : runEnds s t) (hrd : t.tool.rdOpen = false) (hap : t.tool.apOpen = false)
  | opensRead (h : runsAt .openRead s) (hrd : t.tool.rdOpen = true) (hap : t.tool.apOpen = s.tool.apOpen)
  | opensAppend (h : runsAt .openAppend s) (hrd : t.tool.rdOpen = s.tool.rdOpen) (hap : t.tool.apOpen = true)
  | stay (hrd : t.tool.rdOpen = s.tool.rdOpen) (hap : t.tool.apOpen = s.tool.apOpen)

/-- A failure exit of a run ends it and clears both flags (R153). -/
theorem handleCase_failExit {s : State} {q : SeqState} (hr : runsAt q s) (c : RunFailure) (u : State) :
    HandleCase s (failExit c u) :=
  .ends ⟨hr.busy, rfl, .inr rfl⟩ rfl rfl

theorem BlockCase.handles {s t : State} (hc : BlockCase s t) : HandleCase s t := by
  cases hc with
  | openReadFails hr => exact handleCase_failExit hr _ _
  | openReadOpens hr => exact .opensRead hr rfl rfl
  | sizeBadPadding hr => exact handleCase_failExit hr _ _
  | sizeUnaligned hr => exact handleCase_failExit hr _ _
  | readFails hr => exact handleCase_failExit hr _ _
  | zeroCrcFails hr => exact handleCase_failExit hr _ _
  | openAppendFails hr => exact handleCase_failExit hr _ _
  | openAppendOpens hr => exact .opensAppend hr rfl rfl
  | padShort hr => exact handleCase_failExit hr _ _
  | crcShort hr => exact handleCase_failExit hr _ _
  | doneEnds hr => exact .ends ⟨hr.busy, rfl, .inl hr.seqState⟩ rfl rfl
  | _ => exact .stay rfl rfl

theorem StepEffect.handles {s t : State} (he : StepEffect s t) : HandleCase s t := by
  cases he with
  | block rest hc =>
    cases hc.handles with
    | ends h hrd hap => exact .ends h hrd hap
    | opensRead h hrd hap => exact .opensRead h hrd hap
    | opensAppend h hrd hap => exact .opensAppend h hrd hap
    | stay hrd hap => exact .stay hrd hap
  | _ => exact .stay rfl rfl

/-- RD_OPEN is set by OPEN_READ only. -/
theorem HandleCase.rdOpen_setter {s t : State} (h : HandleCase s t) (hs : s.tool.rdOpen = false)
    (ht : t.tool.rdOpen = true) : runsAt .openRead s := by
  cases h with
  | opensRead h => exact h
  | ends _ hrd _ => rw [hrd] at ht; cases ht
  | opensAppend _ hrd _ | stay hrd _ => rw [hrd, hs] at ht; cases ht

/-- AP_OPEN is set by OPEN_APPEND only. -/
theorem HandleCase.apOpen_setter {s t : State} (h : HandleCase s t) (hs : s.tool.apOpen = false)
    (ht : t.tool.apOpen = true) : runsAt .openAppend s := by
  cases h with
  | opensAppend h => exact h
  | ends _ _ hap => rw [hap] at ht; cases ht
  | opensRead _ _ hap | stay _ hap => rw [hap, hs] at ht; cases ht

/-- Only the end of a run clears a handle flag, and it clears both. -/
theorem HandleCase.clearer {s t : State} (h : HandleCase s t)
    (hc : s.tool.rdOpen = true ∧ t.tool.rdOpen = false ∨ s.tool.apOpen = true ∧ t.tool.apOpen = false) :
    runEnds s t ∧ t.tool.rdOpen = false ∧ t.tool.apOpen = false := by
  cases h with
  | ends h hrd hap => exact ⟨h, hrd, hap⟩
  | opensRead _ hrd hap | opensAppend _ hrd hap | stay hrd hap => simp_all

/-- Settles O47: each element's writer is read off the effects of a step. -/
theorem registersHaveTheirOwnWriters : Obligations.RegistersHaveTheirOwnWriters := by
  intro s t hstep hreset
  have he := step_effect_of_noReset hstep hreset
  obtain ⟨helen, hreq, htarget, hfill⟩ := he.operand_writers
  exact ⟨he.result_writer, helen, hreq, htarget, hfill, he.ebuf_writer, he.table_writer, he.toolCrc_writer,
    he.imgSize_writer, he.padLen_writer, he.latched_writer, he.handles.rdOpen_setter, he.handles.apOpen_setter,
    he.handles.clearer, he.params_eq⟩

end Sys2Proof.Machine
end

section
/-! PROOF. The family 20_memory.md: a host write of EBUF (O11); the byte layouts of words (O22); an append is complete
or short (O41); and what a step can do to FILE, said once (`FileCase`), so that FILE only grows (O45) and only PAD and
WRITE_CRC write it (O46). -/

namespace Sys2Proof.Machine

/-! ### EBUF (R46) -/

/-- Settles O11: the accepted write is `Memory.write`, whose reads and canonical form the memory's laws give. -/
theorem ebufWriteChangesOneByte : Obligations.EbufWriteChangesOneByte :=
  fun s off b hr ho hwf => ⟨s.ebuf.write off b, hostEbufWrite_written b hr ho, Memory.wf_write off b hwf,
    Memory.read_write_same s.ebuf off b, fun _ hi => Memory.read_write_other s.ebuf b hi⟩

/-! ### Words and their bytes (R51 to R53) -/

/-- In BE the first byte is the highest (R51). -/
theorem assembleWord_be (b0 b1 b2 b3 : Byte) : assembleWord .be b0 b1 b2 b3 = b0 ++ b1 ++ b2 ++ b3 :=
  Eq.symm <| calc (b0 ++ b1 ++ b2 ++ b3 : Word)
    _ = (b0 ++ b1 ++ b2 ++ b3 : Word).setWidth 32 := (BitVec.setWidth_eq _).symm
    _ = ((b0.setWidth 32 <<< 8 ||| b1.setWidth 32) <<< 8 ||| b2.setWidth 32) <<< 8 ||| b3.setWidth 32 := by
      simp only [BitVec.setWidth_append_eq_shiftLeft_setWidth_or]
    _ = assembleWord .be b0 b1 b2 b3 := by
      simp only [assembleWord, BitVec.shiftLeft_or_distrib, ← BitVec.shiftLeft_add]

/-- LE takes the bytes in the opposite order to BE (R51). -/
theorem assembleWord_le_eq_be (b0 b1 b2 b3 : Byte) : assembleWord .le b0 b1 b2 b3 = assembleWord .be b3 b2 b1 b0 := by
  have hor (w x y z : Word) : w ||| x ||| y ||| z = z ||| y ||| x ||| w := by ac_rfl
  exact hor _ _ _ _

/-- In LE the first byte is the lowest (R51). -/
theorem assembleWord_le (b0 b1 b2 b3 : Byte) : assembleWord .le b0 b1 b2 b3 = b3 ++ b2 ++ b1 ++ b0 := by
  rw [assembleWord_le_eq_be, assembleWord_be]

/-- A word is its four bytes, highest first. -/
theorem append_bytes (v : Word) :
    v.extractLsb' 24 8 ++ v.extractLsb' 16 8 ++ v.extractLsb' 8 8 ++ v.extractLsb' 0 8 = v := by
  have h16 : v.extractLsb' 24 8 ++ v.extractLsb' 16 8 = v.extractLsb' 16 16 :=
    BitVec.extractLsb'_append_extractLsb'_eq_extractLsb' rfl
  have h8 : v.extractLsb' 16 16 ++ v.extractLsb' 8 8 = v.extractLsb' 8 24 :=
    BitVec.extractLsb'_append_extractLsb'_eq_extractLsb' rfl
  have h0 : v.extractLsb' 8 24 ++ v.extractLsb' 0 8 = v.extractLsb' 0 32 :=
    BitVec.extractLsb'_append_extractLsb'_eq_extractLsb' rfl
  rw [h16, h8, h0, BitVec.extractLsb'_eq_self]

/-- The bytes of a word read back as the word, in either order (R53). -/
@[simp] theorem wordsOf_bytes32 (o : ByteOrder) (v : Word) : wordsOf o (bytes32 o v) = [v] := by
  cases o with
  | le => rw [bytes32, wordsOf_cons, wordsOf_nil, assembleWord_le, append_bytes]
  | be => rw [bytes32, wordsOf_cons, wordsOf_nil, assembleWord_be, append_bytes]

/-- A word is formed from its own four bytes only (R53). -/
theorem wordsOf_append (o : ByteOrder) {s : List Byte} (t : List Byte) (h : s.length % 4 = 0) :
    wordsOf o (s ++ t) = wordsOf o s ++ wordsOf o t :=
  wordsOf_append_of_whole o (s.length / 4) s t (by omega)

/-- Settles O22: the layouts of a word, the round trip of its bytes, and that whole words split off. -/
theorem appendedBytesReadBack : Obligations.AppendedBytesReadBack := by
  refine ⟨fun b0 b1 b2 b3 => ⟨assembleWord_le b0 b1 b2 b3, assembleWord_be b0 b1 b2 b3, ?_, ?_⟩,
    fun v => ⟨rfl, rfl⟩, fun o v s t => ⟨rfl, wordsOf_bytes32 o v, wordsOf_append o t⟩⟩
  · rw [wordsOf_cons, wordsOf_nil, assembleWord_le]
  · rw [wordsOf_cons, wordsOf_nil, assembleWord_be]

/-! ### Appends (R56) -/

/-- An answer with fewer bytes than asked is a short append. -/
theorem complete_short_of_lt {bytes g : List Byte} (h : g.length < bytes.length) :
    (WriteAnswer.short g).complete bytes = false := by
  simpa [WriteAnswer.complete] using h

/-- A short append adds the answer's own bytes. -/
theorem appended_short_of_lt {bytes g : List Byte} (h : g.length < bytes.length) :
    (WriteAnswer.short g).appended bytes = g := if_pos h

/-- An append that is not complete was answered with fewer bytes. -/
theorem short_of_not_complete {bytes : List Byte} {a : WriteAnswer} (h : a.complete bytes = false) :
    ∃ g, a = .short g ∧ g.length < bytes.length := by
  cases a with
  | all => rw [complete_all] at h; cases h
  | short g => exact ⟨g, rfl, by simpa [WriteAnswer.complete] using h⟩

/-- An append of nothing is complete. -/
theorem complete_nil (a : WriteAnswer) : a.complete [] = true := by
  cases a with
  | all => rfl
  | short g => exact decide_eq_true (Nat.zero_le g.length)

/-- Settles O41, by what a complete and a short append add. -/
theorem appendsAreCompleteOrShort : Obligations.AppendsAreCompleteOrShort := by
  intro file bytes a
  refine ⟨fun h => ?_, fun h => ?_, fun h => ?_, fun g hg => ⟨complete_short_of_lt hg, ?_⟩⟩
  · rw [memAppend, appended_of_complete h]
  · obtain ⟨g, rfl, hg⟩ := short_of_not_complete h
    exact ⟨g, rfl, hg, by rw [memAppend, appended_short_of_lt hg]⟩
  · rw [h, complete_nil]
  · rw [memAppend, appended_short_of_lt hg]

/-! ### FILE (R49, R61) -/

/-- What a step can do to FILE: it stays as it is, or PAD or WRITE_CRC appends to it. -/
inductive FileCase (s t : State) : Prop
  | stays (h : t.host.file = s.host.file)
  | appends (hr : runsAt .pad s ∨ runsAt .writeCrc s) (file g : List Byte) (hf : s.host.file = some file)
      (ht : t.host.file = some (file ++ g))

theorem BlockCase.fileCase {s t : State} (hc : BlockCase s t) : FileCase s t := by
  cases hc with
  | padWrites hr _ _ _ _ _ file _ _ _ hf => exact .appends (.inl hr) file _ hf rfl
  | padShort hr _ _ _ _ _ file g _ _ hf => exact .appends (.inl hr) file g hf rfl
  | crcWrites hr _ file _ hf => exact .appends (.inr hr) file _ hf rfl
  | crcShort hr _ file g _ hf => exact .appends (.inr hr) file g hf rfl
  | _ => exact .stays rfl

/-- Only a step of the block can append: no move of the host changes FILE (log 24). -/
theorem StepEffect.fileCase {s t : State} (he : StepEffect s t) : FileCase s t := by
  cases he with
  | block rest hc =>
    cases hc.fileCase with
    | stays h => exact .stays h
    | appends hr file g hf ht => exact .appends hr file g hf ht
  | hostOnly hs hf => exact .stays hf
  | refused hs hf => exact .stays hf
  | _ => exact .stays rfl

/-- Everything a step can do to FILE; a reset keeps it (log 18). -/
theorem step_fileCase {s t : State} (h : step s = .next t) : FileCase s t := by
  rcases step_effect h with ⟨rest, -, rfl⟩ | he
  · exact .stays rfl
  · exact he.fileCase

/-- From the invariant, the append handle is open in PAD and in WRITE_CRC (R39). -/
theorem Coherent.apOpen_of_writing {s : State} (h : Coherent s) (hr : runsAt .pad s ∨ runsAt .writeCrc s) :
    s.tool.apOpen = true := by
  rcases hr with hr | hr
  · obtain ⟨-, -, -, hap, -⟩ := h.runInvAt hr
    exact hap
  · obtain ⟨-, -, -, hap, -⟩ := h.runInvAt hr
    exact hap

/-- Settles O45: FILE stays, or its old bytes come first. -/
theorem fileOnlyGrows : Obligations.FileOnlyGrows := by
  intro s t hstep
  cases step_fileCase hstep with
  | stays h => exact ⟨fun hf => h.trans hf, fun file hf => ⟨[], by rw [h, hf, List.append_nil]⟩⟩
  | appends _ file g hf ht =>
    refine ⟨fun hnone => ?_, fun file' hf' => ?_⟩
    · rw [hf] at hnone; cases hnone
    · obtain rfl : file = file' := Option.some.inj (hf.symm.trans hf')
      exact ⟨g, ht⟩

/-- Settles O46: only an append changes FILE, and the invariant has its handle open. -/
theorem onlyPadAndWriteCrcWrite : Obligations.OnlyPadAndWriteCrcWrite := by
  intro s t h hstep hne
  cases step_fileCase hstep with
  | stays heq => exact absurd heq hne
  | appends hr => exact ⟨hr, h.apOpen_of_writing hr⟩

end Sys2Proof.Machine
end

section
/-! PROOF. The family 30_encoding.md: the decoder read field by field, so that it inverts the encoder and names no other
word (O1, O2, O3); a write of CMD and the refusals of a command at its issue (O7); the step that makes a move of the
script (O4, O5); and the codes of CAUSE, EXIT and SEQ_STATE (O14). -/

namespace Sys2Proof

/-! ### The fields of a command word (R68) -/

@[simp] theorem opcField_encode (i : Instr) : opcField (encode i) = i.opc := BitVec.extractLsb'_append_eq_right

@[simp] theorem rsvdField_encode (i : Instr) : rsvdField (encode i) = 0#24 := BitVec.extractLsb'_append_eq_left

/-- A word is its two fields, RSVD above OPC. -/
theorem rsvdField_append_opcField (w : Word) : rsvdField w ++ opcField w = w :=
  (BitVec.extractLsb'_append_extractLsb'_eq_extractLsb' (by rfl)).trans BitVec.extractLsb'_eq_self

theorem eq_encode_iff {w : Word} {i : Instr} : w = encode i ↔ rsvdField w = 0#24 ∧ opcField w = i.opc := by
  constructor
  · rintro rfl
    exact ⟨rsvdField_encode i, opcField_encode i⟩
  · rintro ⟨hr, ho⟩
    rw [← rsvdField_append_opcField w, hr, ho, encode]

/-! ### The decoder (R69, R73 (a), (b)) -/

/-- The opcode map sends no opcode but `i`'s own to `i`. -/
theorem decodeOpc_eq_ok {opc : BitVec 8} {i : Instr} : decodeOpc opc = .ok i ↔ opc = i.opc := by
  constructor
  · intro h
    unfold decodeOpc at h
    split at h
    · cases h; assumption
    · split at h
      · cases h; assumption
      · split at h
        · cases h; assumption
        · cases h
  · rintro rfl
    cases i <;> rfl

theorem decode_of_rsvd_zero {w : Word} (h : rsvdField w = 0#24) : decode w = decodeOpc (opcField w) := by
  rw [decode, if_pos h]

theorem decode_of_rsvd_ne_zero {w : Word} (h : rsvdField w ≠ 0#24) : decode w = .error .reservedBits := by
  rw [decode, if_neg h]

theorem decode_of_unknownOpc {w : Word} (h0 : rsvdField w = 0#24) (h1 : opcField w ≠ 0x01#8)
    (h2 : opcField w ≠ 0x02#8) (h3 : opcField w ≠ 0x03#8) : decode w = .error .unknownOpcode := by
  rw [decode_of_rsvd_zero h0, decodeOpc, if_neg h1, if_neg h2, if_neg h3]

theorem decode_eq_ok_iff_fields {w : Word} {i : Instr} :
    decode w = .ok i ↔ rsvdField w = 0#24 ∧ opcField w = i.opc := by
  by_cases h : rsvdField w = 0#24
  · simp [decode_of_rsvd_zero h, decodeOpc_eq_ok, h]
  · simp [decode_of_rsvd_ne_zero h, h]

/-- R74: the words that decode are the three command words. -/
theorem decode_eq_ok_iff {w : Word} {i : Instr} : decode w = .ok i ↔ w = encode i :=
  decode_eq_ok_iff_fields.trans eq_encode_iff.symm

@[simp] theorem decode_encode (i : Instr) : decode (encode i) = .ok i := decode_eq_ok_iff.mpr rfl

/-- Settles O1: a command's word has its fields, and the decoder reads nothing else. -/
theorem decodeInvertsEncode : Obligations.DecodeInvertsEncode := fun i _ => decode_encode i

/-- Settles O3: the first three words are `encode` of their commands; the next two have RSVD 0 and an unknown OPC, the
last two a nonzero RSVD. -/
theorem opcodeMapWordsDecode : Obligations.OpcodeMapWordsDecode := by
  refine ⟨decode_encode .engInit, decode_encode .engCrc32, decode_encode .toolRun, ?opc0, ?opc4,
    decode_of_rsvd_ne_zero (by decide), decode_of_rsvd_ne_zero (by decide)⟩
  case opc0 | opc4 => exact decode_of_unknownOpc (by decide) (by decide) (by decide) (by decide)

end Sys2Proof

namespace Sys2Proof.Machine

/-! ### A write of CMD (R22, R73) -/

theorem commandWrite_decoded {w : Word} {i : Instr} (s : State) (h : decode w = .ok i) :
    commandWrite w s = exec i s := by
  simp only [commandWrite, h]

theorem commandWrite_illegal {w : Word} {e : DecodeError} {s : State} (h : decode w = .error e) (hr : ready s) :
    commandWrite w s = .next (refuse .illegalCommand s) := by
  simp only [commandWrite, h]
  exact atIssue_ready _ hr

/-- Settles O2: a word that is no command's word decodes to an error, and a ready block refuses it. -/
theorem everyOtherCommandWordIsIllegal : Obligations.EveryOtherCommandWordIsIllegal := by
  refine ⟨fun _ _ => decode_eq_ok_iff, fun w s hw hr => ?_⟩
  cases hd : decode w with
  | ok i => exact absurd (decode_eq_ok_iff.mp hd) (hw i)
  | error e => exact commandWrite_illegal hd hr

/-! ### Operands that hold no value (R73 (c)) -/

theorem exec_engCrc32_unset {s : State} (hr : ready s) (h : s.regs.elen = none) :
    exec .engCrc32 s = .next (refuse .unsetOperand s) := by
  rw [execEngCrc32_eq, execEngCrc32, atIssue_ready _ hr]
  simp only [h]

/-- TOOL_RUN lacks an operand exactly when PAD_REQ holds none, or requests padding and the target or the fill holds
none (R71). -/
theorem toolOperands_eq_none {s : State} : toolOperands s = none ↔
    s.regs.padReq = none ∨ s.regs.padReq = some true ∧ (s.regs.padTarget = none ∨ s.regs.padFill = none) := by
  unfold toolOperands
  rcases s.regs.padReq with _ | _ | _
  · simp
  · simp
  · cases s.regs.padTarget <;> cases s.regs.padFill <;> simp

theorem exec_toolRun_unset {s : State} (hr : ready s) (h : toolOperands s = none) :
    exec .toolRun s = .next (refuse .unsetOperand s) := by
  rw [execToolRun_eq, execToolRun, atIssue_ready _ hr]
  simp only [h]

/-- Settles O7: the issue conditions come first, then the decoder's checks, then the command's operands. -/
theorem commandIssueFollowsItsPseudocode : Obligations.CommandIssueFollowsItsPseudocode := by
  intro w s
  have hdecoded (i : Instr) (h0 : rsvdField w = 0#24) (ho : opcField w = i.opc) : commandWrite w s = exec i s :=
    commandWrite_decoded s (decode_eq_ok_iff_fields.mpr ⟨h0, ho⟩)
  refine ⟨fun hh => ⟨commandWrite_halted w hh, fun i => exec_halted i hh⟩,
    fun hh hb => ⟨commandWrite_busy w hh hb, fun i => exec_busy i hh hb⟩, fun hr h0 => ?reserved,
    hdecoded .engInit, hdecoded .engCrc32, hdecoded .toolRun, fun hr h0 h1 h2 h3 => ?unknown,
    exec_engCrc32_unset, fun hr h => exec_toolRun_unset hr (toolOperands_eq_none.mpr h)⟩
  case reserved => exact commandWrite_illegal (decode_of_rsvd_ne_zero h0) hr
  case unknown => exact commandWrite_illegal (decode_of_unknownOpc h0 h1 h2 h3) hr

/-! ### The step that makes the host's next move (R79) -/

theorem stillWaiting_wait {s : State} {rest : List HostMove} (hs : s.host.script = .wait :: rest) :
    stillWaiting s = s.status.busy := by
  simp only [stillWaiting, hs]

/-- Only a `wait` holds its place in the script. -/
theorem stillWaiting_of_ne_wait {s : State} {m : HostMove} {rest : List HostMove} (hs : s.host.script = m :: rest)
    (hm : m ≠ .wait) : stillWaiting s = false := by
  unfold stillWaiting
  rw [hs]
  cases m with
  | wait => exact absurd rfl hm
  | wr | rd | ebufWr | idle | reset => rfl

/-- A step makes the script's first move unless the host still waits. -/
theorem step_of_move {s : State} {m : HostMove} {rest : List HostMove} (hs : s.host.script = m :: rest)
    (hw : stillWaiting s = false) : step s = hostMove m (withScript s rest) := by
  simp [step, nextMove, hs, hw, withScript]

theorem hostMove_wr {reg : Nat} (v : Dword) (s : State) (h : reg ≠ 0) :
    hostMove (.wr reg v) s = .next (hostWrite reg v s) := by
  rw [hostMove, if_neg h]

theorem step_cmd {s : State} {v : Dword} {rest : List HostMove} (hs : s.host.script = .wr 0 v :: rest) :
    step s = commandWrite (v.setWidth 32) (withScript s rest) :=
  step_of_move hs (stillWaiting_of_ne_wait hs nofun)

/-- Settles O4: the step is the write of CMD, and the word decodes. -/
theorem stepIssuesTheDecodedCommand : Obligations.StepIssuesTheDecodedCommand :=
  fun _ _ _ _ hs hi => (step_cmd hs).trans (commandWrite_decoded _ hi)

/-- Settles O5: each move is made by `step_of_move`, a `wait` once the block is not busy. -/
theorem stepMakesTheHostsMove : Obligations.StepMakesTheHostsMove := by
  intro s rest
  have hmove (m : HostMove) (hm : m ≠ .wait) (hs : s.host.script = m :: rest) :
      step s = hostMove m (withScript s rest) := step_of_move hs (stillWaiting_of_ne_wait hs hm)
  exact ⟨fun reg v h0 hs => (hmove (.wr reg v) nofun hs).trans (hostMove_wr v _ h0), fun reg => hmove (.rd reg) nofun,
    fun off b => hmove (.ebufWr off b) nofun, fun hs hb => step_of_move hs ((stillWaiting_wait hs).trans hb),
    hmove .idle nofun, hmove .reset nofun, fun _ _ hs _ => step_cmd hs⟩

/-! ### Codes (R76 to R78) -/

/-- The rows of R76's table. -/
def Cause.all : List Cause :=
  [.none, .run .invalidPaddingConfig, .run .unalignedImageSize, .run .fileOpenErrorRead, .run .fileOpenErrorAppend,
    .run .readError, .run .writeErrorPad, .run .writeErrorCrc, .run .alreadyChecksummed, .engine .tableNotBuilt,
    .engine .lenUnaligned, .engine .bounds, .engine .undefinedInput, .refusal .illegalCommand,
    .refusal .illegalAccess, .refusal .unsetOperand]

/-- The rows of R77's table. -/
def ExitCategory.all : List ExitCategory :=
  [.none, .success, .argParse, .fileOpen, .validation, .alreadyChecksummed, .write]

/-- The rows of R78's table. -/
def SeqState.all : List SeqState :=
  [.idle, .start, .openRead, .sizeValidate, .readBuffer, .computeCrc, .zeroCrcCheck, .openAppend, .pad, .writeCrc,
    .done, .fail]

theorem Cause.mem_all (c : Cause) : c ∈ Cause.all := by
  cases c with
  | none => decide
  | run c => cases c <;> decide
  | engine c => cases c <;> decide
  | refusal c => cases c <;> decide

theorem ExitCategory.mem_all (x : ExitCategory) : x ∈ ExitCategory.all := by cases x <;> decide

theorem SeqState.mem_all (q : SeqState) : q ∈ SeqState.all := by cases q <;> decide

theorem Cause.code_injective {c d : Cause} (h : c.code = d.code) : c = d :=
  List.inj_on_of_nodup_map (f := Cause.code) (by decide) c.mem_all d.mem_all h

theorem ExitCategory.code_injective {x y : ExitCategory} (h : x.code = y.code) : x = y :=
  List.inj_on_of_nodup_map (f := ExitCategory.code) (by decide) x.mem_all y.mem_all h

theorem SeqState.code_injective {a b : SeqState} (h : a.code = b.code) : a = b :=
  List.inj_on_of_nodup_map (f := SeqState.code) (by decide) a.mem_all b.mem_all h

/-- Settles O14: the codes row by row; no code stands in two rows of its table. -/
theorem codesNameOneThing : Obligations.CodesNameOneThing := by
  refine ⟨fun c => ?cause, fun x => ?exit, fun q => ?seq, fun _ _ => Cause.code_injective,
    fun _ _ => SeqState.code_injective, fun _ _ => ExitCategory.code_injective⟩
  case cause =>
    cases c with
    | none => rfl
    | run c => cases c <;> rfl
    | engine c => cases c <;> rfl
    | refusal c => cases c <;> rfl
  case exit => cases x <;> rfl
  case seq => cases q <;> rfl

end Sys2Proof.Machine
end

section
/-! PROOF. The family 40_crc_engine.md: ENG_INIT and the Reversal Table (O16, O17); the datapath's rounds, word steps
and checksums against the peripheral's and the bytewise CRC (O19, O20, O21); the residue and the short checksums (O23,
O24); the internal request (O27); and ENG_CRC32, step by step and as a whole (O25, O26). -/

namespace Sys2Proof.Machine

/-! ### ENG_INIT (R87, R103) -/

theorem exec_engInit_ready {s : State} (hr : ready s) :
    exec .engInit s = .next (completeCommand (buildTable (beginCommand s))) := by
  rw [execEngInit_eq, execEngInit, atIssue_ready _ hr]

/-- Entry i of the Reversal Table is i reversed (R87). -/
theorem revTable_entry {i : Nat} (h : i < 256) : revTable.entries[i]? = some (rev8 (BitVec.ofNat 8 i)) := by
  simp [revTable, h]

/-- Settles O16: a ready block takes the whole of ENG_INIT, and the table it writes is the one that was built. -/
theorem engInitBuildsTheTable : Obligations.EngInitBuildsTheTable := by
  intro s hr
  refine ⟨⟨revTable, exec_engInit_ready hr, fun _ => revTable_entry⟩,
    fun ⟨hv, hrt⟩ => ⟨_, exec_engInit_ready hr, ?_, hv.symm⟩⟩
  rw [completeCommand_engine, buildTable_engine, beginCommand_engine, ← hrt]

/-- Settles O17, by what a read of the built table returns. -/
theorem reversalTableReversesBytes : Obligations.ReversalTableReversesBytes :=
  ⟨fun _ hr => ⟨_, exec_engInit_ready hr, rfl⟩, fun b i hi => by rw [rtRead_revTable, getLsbD_rev8 b hi]⟩

/-! ### Rounds and word steps (R89 to R96) -/

/-- Settles O19: the round is eight reflected bit steps; the table's values are evaluated. -/
theorem roundIsEightBitSteps : Obligations.RoundIsEightBitSteps :=
  ⟨fun a => ⟨rfl, crcRound_eq_iterate a, rfl⟩, rev32_poly.symm, by decide, by decide, by decide, by decide⟩

/-- Settles O20, by the mirror law of the word step. -/
theorem wordstepMirrorsThePeripheral : Obligations.WordstepMirrorsThePeripheral :=
  fun s w => ⟨wordstep_rev32 s w, rfl, rfl⟩

/-! ### The peripheral's CRC, byte by byte (R98) -/

/-- One byte of the CRC-32/MPEG-2, most significant bit first. -/
def msbByteStep (r : Word) (b : Byte) : Word := iterate stepmsb 8 (r ^^^ (b.setWidth 32 <<< 24))

/-- While the high bits are 0, the peripheral's bit step only shifts. -/
theorem iterate_stepmsb_of_high_zero (n : Nat) (x : Word) (h : ∀ i, i < n → x.getMsbD i = false) :
    iterate stepmsb n x = x <<< n := by
  induction n generalizing x with
  | zero => simp
  | succ n ih =>
    have htop : x.getLsbD 31 = false := by simpa [BitVec.getMsbD_eq_getLsbD] using h 0 (by omega)
    have hstep : stepmsb x = x <<< 1 := by rw [stepmsb, htop]; simp
    have hnext : ∀ i, i < n → (x <<< 1).getMsbD i = false := fun i hi => by
      rw [BitVec.getMsbD_shiftLeft]; exact h (i + 1) (by omega)
    rw [iterate_succ, hstep, ih _ hnext, ← BitVec.shiftLeft_add, Nat.add_comm]

/-- A word is its highest byte and its lower bytes. -/
theorem highByte_xor_lower (w : Word) : ((w.extractLsb' 24 8).setWidth 32 <<< 24) ^^^ (w <<< 8 >>> 8) = w := by
  refine BitVec.eq_of_getLsbD_eq fun i hi => ?_
  by_cases h : i < 24
  · simp [h, hi, show 8 + i < 32 by omega]
  · simp [h, hi, show ¬8 + i < 32 by omega, show i - 24 < 8 by omega, show 24 + (i - 24) = i by omega]

/-- Eight bit steps consume the highest byte of a word and move the others up. -/
theorem iterate_stepmsb_eight (s w : Word) :
    iterate stepmsb 8 (s ^^^ w) = msbByteStep s (w.extractLsb' 24 8) ^^^ (w <<< 8) := by
  have hlower : iterate stepmsb 8 (w <<< 8 >>> 8) = w <<< 8 := by
    rw [iterate_stepmsb_of_high_zero 8 _ fun i hi => by simp [hi]]
    refine BitVec.eq_of_getLsbD_eq fun i hi => ?_
    by_cases h : i < 8
    · simp [h]
    · simp [h, hi, show 8 + (i - 8) = i by omega]
  calc iterate stepmsb 8 (s ^^^ w)
      = iterate stepmsb 8 ((s ^^^ ((w.extractLsb' 24 8).setWidth 32 <<< 24)) ^^^ (w <<< 8 >>> 8)) := by
        rw [BitVec.xor_assoc, highByte_xor_lower]
    _ = msbByteStep s (w.extractLsb' 24 8) ^^^ (w <<< 8) := by rw [iterate_xor stepmsb_xor, hlower]; rfl

/-- The highest byte of a word moved up. -/
theorem highByte_shiftLeft (w : Word) {k lo : Nat} (h : lo + k = 24) :
    (w <<< k).extractLsb' 24 8 = w.extractLsb' lo 8 := by
  refine BitVec.eq_of_getLsbD_eq fun i hi => ?_
  simp only [BitVec.getLsbD_extractLsb', BitVec.getLsbD_shiftLeft, show 24 + i < 32 by omega,
    show ¬24 + i < k by omega, show 24 + i - k = lo + i by omega, decide_true, decide_false, Bool.not_false,
    Bool.true_and]

/-- The peripheral's word update is four byte steps, most significant byte first. -/
theorem upd_eq_foldl_bytes (s w : Word) : upd s w = (bytes32 .be w).foldl msbByteStep s := by
  have hdone : w <<< 32 = 0#32 := BitVec.shiftLeft_eq_zero (by decide)
  calc upd s w
      = iterate stepmsb (8 + 8 + 8 + 8) (s ^^^ w) := rfl
    _ = (bytes32 .be w).foldl msbByteStep s := by
      simp only [iterate_add, iterate_stepmsb_eight, bytes32, List.foldl_cons, List.foldl_nil]
      simp only [← BitVec.shiftLeft_add, Nat.reduceAdd, hdone, BitVec.xor_zero,
        highByte_shiftLeft w (k := 8) (lo := 16) rfl, highByte_shiftLeft w (k := 16) (lo := 8) rfl,
        highByte_shiftLeft w (k := 24) (lo := 0) rfl]

/-- `crc32` is the bytewise CRC of the words' bytes, most significant first. -/
theorem crc32_eq_foldl_bytes (o : ByteOrder) (s : List Byte) :
    crc32 o s = ((wordsOf o s).flatMap (bytes32 .be)).foldl msbByteStep Config.initValue := by
  simp only [List.foldl_flatMap, ← upd_eq_foldl_bytes]
  rfl

/-- Settles O21: the datapath's mirror law, and the word update byte by byte. -/
theorem datapathComputesCrc32 : Obligations.DatapathComputesCrc32 :=
  fun o s _ => ⟨revw_accAfter o s, crc32_eq_foldl_bytes o s⟩

/-! ### The residue and short checksums (R99 to R101) -/

/-- A word appended to whole words is one more update. -/
theorem crc32_append_bytes32 (o : ByteOrder) {s : List Byte} (v : Word) (h : s.length % 4 = 0) :
    crc32 o (s ++ bytes32 o v) = upd (crc32 o s) v := by
  rw [crc32, wordsOf_append o _ h, wordsOf_bytes32, List.foldl_append]
  rfl

/-- Settles O23: the last update is that of the checksum with itself. -/
theorem residueIsZero : Obligations.ResidueIsZero :=
  fun o _ h => (crc32_append_bytes32 o _ h).trans (upd_eq_zero.mpr rfl)

/-- The accumulator after the word 0 (R92). -/
theorem wordstep_initValue_zero : wordstep revTable Config.initValue 0#32 = 0xDEBB20E3#32 := by
  rw [wordstep, revw_revTable, rev32_zero]
  decide

/-- Its reversal, the checksum of the word 0 (R93). -/
theorem rev32_acc_of_zero : rev32 0xDEBB20E3#32 = 0xC704DD7B#32 := by decide +kernel

/-- Settles O24: the word of all ones is the checksum of no bytes, and the datapath takes the word 0. -/
theorem shortChecksums : Obligations.ShortChecksums := by
  intro o
  have hones : crc32 o (bytes32 o Config.initValue) = 0#32 := residueIsZero o [] rfl
  have hzero : crc32 o (bytes32 o 0#32) = 0xC704DD7B#32 := by
    rw [← revw_accAfter, accAfter, wordsOf_bytes32, List.foldl_cons, List.foldl_nil, wordstep_initValue_zero,
      revw_revTable, rev32_acc_of_zero]
  refine ⟨rfl, (revw_revTable _).trans rev32_initValue, residueIsZero o, ?_, wordstep_initValue_zero,
    (revw_revTable _).trans rev32_acc_of_zero, ?_⟩
  · cases o <;> exact hones
  · cases o <;> exact hzero

/-! ### The internal request (R102) -/

/-- Settles O27, by what a request does on a built table and on one that is not. -/
theorem internalRequestGivesCrc32 : Obligations.InternalRequestGivesCrc32 :=
  fun bytes _ k => ⟨fun ht _ => by rw [engineRequest_built bytes k (builtTable_of_tableBuilt ht), revw_accAfter],
    fun hv => engineRequest_notBuilt bytes k (builtTable_eq_none hv)⟩

/-! ### ENG_CRC32 at its issue (R104) -/

/-- The ENGINE with accumulator `a` at word index `i`, the rest of the state as in `s`. -/
def crcAt (a : Word) (i : Dword) (s : State) : State := { s with engine.acc := some a, engine.widx := some i }

theorem exec_engCrc32_ready {s : State} {l : Dword} (hr : ready s) (hl : s.regs.elen = some l) :
    exec .engCrc32 s = .next (startCrc32 l (beginCommand s)) := by
  rw [execEngCrc32_eq, execEngCrc32, atIssue_ready _ hr]
  simp only [hl]

theorem startCrc32_notBuilt (l : Dword) {s : State} (h : builtTable s = none) :
    startCrc32 l s = raiseEngineFault .tableNotBuilt s :=
  if_pos h

theorem startCrc32_unaligned {l : Dword} {s : State} (hb : builtTable s ≠ none) (h : l.toNat % 4 ≠ 0) :
    startCrc32 l s = raiseEngineFault .lenUnaligned s := by
  rw [startCrc32, if_neg hb, if_pos h]

theorem startCrc32_outOfBounds {l : Dword} {s : State} (hb : builtTable s ≠ none) (ha : l.toNat % 4 = 0)
    (h : s.params.ebufBytes < l.toNat) : startCrc32 l s = raiseEngineFault .bounds s := by
  rw [startCrc32, if_neg hb, if_neg (not_not.mpr ha), if_pos h]

theorem startCrc32_starts {l : Dword} {s : State} (hb : builtTable s ≠ none) (ha : l.toNat % 4 = 0)
    (h : l.toNat ≤ s.params.ebufBytes) : startCrc32 l s = crcAt Config.initValue 0#64 s := by
  rw [startCrc32, if_neg hb, if_neg (not_not.mpr ha), if_neg (Nat.not_lt.mpr h)]
  rfl

/-- BUSY and DONE are no part of the table. -/
theorem builtTable_beginCommand_ne_none {s : State} (h : tableBuilt s) : builtTable (beginCommand s) ≠ none := by
  rw [builtTable_of_tableBuilt (s := beginCommand s) h]
  nofun

/-! ### ENG_CRC32 step by step (R104) -/

/-- The state an ENG_CRC32 with accumulator `a` ends in. -/
def crcDone (a : Word) (s : State) : State :=
  completeCommand { s with regs.result := some (revw revTable a), engine.acc := none, engine.widx := none }

theorem computesAt.busy {l i : Dword} {s : State} (h : computesAt l i s) : s.status.busy = true := by
  obtain ⟨-, hb, -, -⟩ := h
  exact hb

theorem computesAt.elen {l i : Dword} {s : State} (h : computesAt l i s) : s.regs.elen = some l := by
  obtain ⟨-, -, -, hl⟩ := h
  exact hl

/-- A word step leaves the computation in progress, at the index it writes. -/
theorem computesAt.crcAt {l i : Dword} {s : State} (h : computesAt l i s) (a : Word) (j : Dword) :
    computesAt l j (crcAt a j s) := by
  obtain ⟨hh, hb, -, hl⟩ := h
  exact ⟨hh, hb, rfl, hl⟩

/-- The step of an ENG_CRC32 in progress is the ENGINE's. -/
theorem blockStep_of_computesAt {l i : Dword} {s : State} (h : computesAt l i s) : blockStep s = engineStep i s := by
  obtain ⟨hh, hb, hw, -⟩ := h
  simp only [blockStep, hh, hb, hw, Bool.false_eq_true, if_false, if_true]

theorem blockStep_wordStep {l i : Dword} {s : State} (h : computesAt l i s) (hi : i.toNat < l.toNat / 4) :
    blockStep s = engineWordStep i s := by
  simp only [blockStep_of_computesAt h, engineStep, h.elen, hi, if_true]

theorem blockStep_finalStep {l i : Dword} {s : State} (h : computesAt l i s) (hi : i.toNat = l.toNat / 4) :
    blockStep s = engineFinalStep s := by
  simp only [blockStep_of_computesAt h, engineStep, h.elen, hi, Nat.lt_irrefl, if_false, if_true]

theorem blockStep_consumes {l i : Dword} {s : State} {a w : Word} (h : computesAt l i s) (ht : tableBuilt s)
    (hi : i.toNat < l.toNat / 4) (ha : s.engine.acc = some a)
    (hw : ebufWord s.params.byteOrder s.ebuf i.toNat = some w) :
    blockStep s = .next (crcAt (wordstep revTable a w) (i + 1#64) s) := by
  rw [blockStep_wordStep h hi]
  simp only [engineWordStep, builtTable_of_tableBuilt ht, hw, ha]
  rfl

theorem blockStep_undefinedInput {l i : Dword} {s : State} (h : computesAt l i s) (ht : tableBuilt s)
    (hi : i.toNat < l.toNat / 4) (hw : ebufWord s.params.byteOrder s.ebuf i.toNat = none) :
    blockStep s = .next (raiseEngineFault .undefinedInput s) := by
  rw [blockStep_wordStep h hi]
  simp only [engineWordStep, builtTable_of_tableBuilt ht, hw]

theorem blockStep_final {l i : Dword} {s : State} {a : Word} (h : computesAt l i s) (ht : tableBuilt s)
    (hi : i.toNat = l.toNat / 4) (ha : s.engine.acc = some a) : blockStep s = .next (crcDone a s) := by
  rw [blockStep_finalStep h hi]
  simp only [engineFinalStep, builtTable_of_tableBuilt ht, ha]
  rfl

/-- Four bytes that hold values make a word (R51). -/
theorem ebufWord_some {o : ByteOrder} {m : Memory} {i : Nat} {b0 b1 b2 b3 : Byte} (h0 : m.read (4 * i) = some b0)
    (h1 : m.read (4 * i + 1) = some b1) (h2 : m.read (4 * i + 2) = some b2) (h3 : m.read (4 * i + 3) = some b3) :
    ebufWord o m i = some (assembleWord o b0 b1 b2 b3) := by
  simp only [ebufWord, h0, h1, h2, h3]

/-- A byte of the group that holds no value leaves no word. -/
theorem ebufWord_none {o : ByteOrder} {m : Memory} {i : Nat} (h : ∃ j, j < 4 ∧ m.read (4 * i + j) = none) :
    ebufWord o m i = none := by
  obtain ⟨j, hj, hnone⟩ := h
  unfold ebufWord
  split
  · interval_cases j <;> simp_all
  · rfl

/-- WIDX does not wrap below L/4 (R34). -/
theorem toNat_widx_succ {l i : Dword} (hi : i.toNat < l.toNat / 4) : (i + 1#64).toNat = i.toNat + 1 := by
  bv_omega

/-- Settles O25: the issue's checks in their order, then the word step and the final step. -/
theorem engCrc32FollowsItsPseudocode : Obligations.EngCrc32FollowsItsPseudocode := by
  intro s l hl
  have hissue {t : State} (hr : ready s) (h : startCrc32 l (beginCommand s) = t) : exec .engCrc32 s = .next t := by
    rw [exec_engCrc32_ready hr hl, h]
  exact ⟨fun hr hv => hissue hr (startCrc32_notBuilt l (builtTable_eq_none hv)),
    fun hr ht ha => hissue hr (startCrc32_unaligned (builtTable_beginCommand_ne_none ht) ha),
    fun hr ht ha hb => hissue hr (startCrc32_outOfBounds (builtTable_beginCommand_ne_none ht) ha hb),
    fun hr ht ha hb => hissue hr (startCrc32_starts (builtTable_beginCommand_ne_none ht) ha hb),
    fun i hc ht hi hnone => blockStep_undefinedInput hc ht hi (ebufWord_none hnone),
    fun i a b0 b1 b2 b3 hc ht hi ha h0 h1 h2 h3 =>
      ⟨blockStep_consumes hc ht hi ha (ebufWord_some h0 h1 h2 h3), toNat_widx_succ hi⟩,
    fun i a hc ht hi ha => blockStep_final hc ht hi ha⟩

/-! ### A whole ENG_CRC32 (R104) -/

/-- From word index `i`, an ENG_CRC32 consumes the remaining `n` words of EBUF and ends. -/
theorem run_engCrc32 {l : Dword} (n : Nat) {s : State} {i : Dword} {a : Word} {bytes : List Byte}
    (hc : computesAt l i s) (ht : tableBuilt s) (hq : hostQuiet s) (ha : s.engine.acc = some a)
    (hn : i.toNat + n = l.toNat / 4) (hlen : bytes.length = 4 * n)
    (hbytes : ∀ j, j < bytes.length → s.ebuf.read (4 * i.toNat + j) = bytes[j]?) :
    core.run (n + 1) s = .next (crcDone ((wordsOf s.params.byteOrder bytes).foldl (wordstep revTable) a) s) := by
  induction n generalizing s i a bytes with
  | zero =>
    obtain rfl : bytes = [] := List.length_eq_zero_iff.mp hlen
    rw [run_quiet hq hc.busy (blockStep_final hc ht hn ha)]
    rfl
  | succ n ih =>
    rcases fourBytes_cases (s := bytes) (by omega) with rfl | ⟨b0, b1, b2, b3, rest, rfl, -⟩
    · simp at hlen
    · have hi : i.toNat < l.toNat / 4 := by omega
      have hrest : ∀ j, j < rest.length → s.ebuf.read (4 * (i + 1#64).toNat + j) = rest[j]? := fun j hj => by
        rw [toNat_widx_succ hi, show 4 * (i.toNat + 1) + j = 4 * i.toNat + (j + 4) by omega]
        exact hbytes (j + 4) (by simpa using hj)
      have hword := ebufWord_some (o := s.params.byteOrder) (hbytes 0 (by simp)) (hbytes 1 (by simp))
        (hbytes 2 (by simp)) (hbytes 3 (by simp))
      rw [run_quiet hq hc.busy (blockStep_consumes hc ht hi ha hword)]
      exact ih (bytes := rest) (hc.crcAt _ _) ht hq rfl (by rw [toNat_widx_succ hi]; omega)
        (by simpa [Nat.mul_succ] using hlen) hrest

/-- Settles O26: the issue step starts at word 0, and the run from there consumes every word. -/
theorem engCrc32ComputesTheChecksum : Obligations.EngCrc32ComputesTheChecksum := by
  intro s l bytes hr ht hq hl hlen ha hb hbytes
  have hissue : exec .engCrc32 s = .next (crcAt Config.initValue 0#64 (beginCommand s)) := by
    rw [exec_engCrc32_ready hr hl, startCrc32_starts (builtTable_beginCommand_ne_none ht) ha hb]
  have hrun := run_engCrc32 (s := crcAt Config.initValue 0#64 (beginCommand s)) (bytes := bytes) (l.toNat / 4)
    ⟨hr.1, rfl, rfl, hl⟩ ht hq rfl (by simp) (by omega) fun j hj => by simpa [crcAt] using hbytes j hj
  refine ⟨_, hissue, hrun.trans ?_⟩
  rw [← revw_accAfter]
  rfl

end Sys2Proof.Machine
end

section
/-! PROOF. The family 41_append_tool.md: START and each sequencer state, one equation per outcome (O28 to O38); a run on
an oversized image is stuck (O49); SEQ_STATE follows R130's table (O44); and whole runs: without padding (O54), with it
(O55, O58), and every run within ten steps (O56). -/

namespace Sys2Proof.Machine

/-! ### START (R114) -/

theorem toolOperands_unpadded {s : State} (h : s.regs.padReq = some false) : toolOperands s = some ⟨none⟩ := by
  simp only [toolOperands, h]

theorem toolOperands_padded {s : State} {target fill : Dword} (h : s.regs.padReq = some true)
    (ht : s.regs.padTarget = some target) (hf : s.regs.padFill = some fill) :
    toolOperands s = some ⟨some (target.toInt, fill.toInt)⟩ := by
  simp only [toolOperands, h, ht, hf]

theorem exec_toolRun_ready {s : State} {ops : ToolOperands} (hr : ready s) (h : toolOperands s = some ops) :
    exec .toolRun s = .next (startRun ops s) := by
  rw [execToolRun_eq, execToolRun, atIssue_ready _ hr]
  simp only [h]

@[simp] theorem startRun_params (ops : ToolOperands) (s : State) : (startRun ops s).params = s.params := by
  obtain ⟨_ | _⟩ := ops <;> rfl

@[simp] theorem startRun_host (ops : ToolOperands) (s : State) : (startRun ops s).host = s.host := by
  obtain ⟨_ | _⟩ := ops <;> rfl

/-- Settles O28: a ready block with its operands starts the run. -/
theorem toolRunStarts : Obligations.ToolRunStarts :=
  fun _ hr => ⟨fun h => exec_toolRun_ready hr (toolOperands_unpadded h),
    fun _ _ h ht hf => exec_toolRun_ready hr (toolOperands_padded h ht hf)⟩

/-! ### OPEN_READ (R116) -/

theorem blockStep_openRead_absent {s : State} (h : runsAt .openRead s) (hf : s.host.file = none) :
    blockStep s = .next
      (failExit .fileOpenErrorRead { s with host.openReadAnswers := s.host.openReadAnswers.tail }) := by
  simp only [blockStep_of_runsAt h, toolStep, h.seqState, toolOpenRead, hf, if_true, onAnswer_forced]

theorem blockStep_openRead_fails {s : State} {rest : List OpenAnswer} (h : runsAt .openRead s)
    (ha : s.host.openReadAnswers = .fail :: rest) :
    blockStep s = .next (failExit .fileOpenErrorRead { s with host.openReadAnswers := rest }) := by
  cases hf : s.host.file with
  | none => rw [blockStep_openRead_absent h hf, ha, List.tail_cons]
  | some file =>
    simp only [blockStep_of_runsAt h, toolStep, h.seqState, toolOpenRead, hf, ha, reduceCtorEq, if_false,
      onAnswer_queued, List.tail_cons]

theorem blockStep_openRead_opens {s : State} {file : List Byte} {rest : List OpenAnswer} (h : runsAt .openRead s)
    (hf : s.host.file = some file) (ha : s.host.openReadAnswers = .ok :: rest) :
    blockStep s = .next
      { s with host.openReadAnswers := rest, tool.rdOpen := true, regs.seqState := .sizeValidate } := by
  simp only [blockStep_of_runsAt h, toolStep, h.seqState, toolOpenRead, hf, ha, reduceCtorEq, if_false,
    onAnswer_queued, List.tail_cons]

/-- Settles O29: an absent FILE forces the failure, else the answer decides. -/
theorem openReadOpensOrFails : Obligations.OpenReadOpensOrFails :=
  fun _ h => ⟨fun hf => ⟨_, blockStep_openRead_absent h hf⟩, fun _ => blockStep_openRead_fails h,
    fun _ _ => blockStep_openRead_opens h⟩

/-! ### SIZE_VALIDATE (R117, R118) -/

theorem padOk_iff {target fill : Int} {n : Nat} : padOk target fill n = true ↔
    0 ≤ target ∧ target % 4 = 0 ∧ (n : Int) + 4 ≤ target ∧ 0 ≤ fill ∧ fill ≤ 255 := by
  simp only [padOk, Bool.and_eq_true, decide_eq_true_eq, and_assoc]

@[simp] theorem length_padOf (target fill : Int) (n : Nat) :
    (padOf target fill n).length = (target - 4 - n).toNat :=
  List.length_replicate

/-- Settles O31, on integers. -/
theorem padValidationGuaranteesThePad : Obligations.PadValidationGuaranteesThePad := by
  refine fun target fill n => ⟨padOk_iff, fun hp hn => ?_⟩
  obtain ⟨-, h4, hsize, -⟩ := padOk_iff.mp hp
  rw [length_padOf]
  omega

theorem exceedsMaxImage_eq_false {p : Params} {n : Nat} :
    exceedsMaxImage p n = false ↔ ∀ m, p.maxImageBytes = some m → n ≤ m := by
  unfold exceedsMaxImage
  cases p.maxImageBytes <;> simp

theorem exceedsMaxImage_of_lt {p : Params} {m n : Nat} (hm : p.maxImageBytes = some m) (h : m < n) :
    exceedsMaxImage p n = true := by
  simp only [exceedsMaxImage, hm, h, decide_true]

theorem blockStep_sizeValidate_eq {s : State} (h : runsAt .sizeValidate s) : blockStep s = toolSizeValidate s := by
  rw [blockStep_of_runsAt h, toolStep, h.seqState]

theorem blockStep_sizeValidate_stuck {s : State} {file : List Byte} (h : runsAt .sizeValidate s)
    (hf : s.host.file = some file) (hx : exceedsMaxImage s.params file.length = true) :
    blockStep s = .next { s with regs.imgSize := some (BitVec.ofNat 64 file.length) } := by
  simp only [blockStep_sizeValidate_eq h, toolSizeValidate, hf, hx, if_true]

/-- The checks on an image within MAX_IMAGE_BYTES, by the descriptor the run latched: the padding check comes first. -/
theorem blockStep_sizeValidate_checks {s : State} {file : List Byte} {d : Option (Int × Int)}
    (h : runsAt .sizeValidate s) (hf : s.host.file = some file)
    (hx : exceedsMaxImage s.params file.length = false) (hd : latchedPadding s = .ok d) :
    blockStep s = .next
      (if ∀ p ∈ d, padOk p.1 p.2 file.length = true then
        if file.length % 4 = 0 then
          { s with regs.imgSize := some (BitVec.ofNat 64 file.length), regs.seqState := .readBuffer }
        else failExit .unalignedImageSize { s with regs.imgSize := some (BitVec.ofNat 64 file.length) }
      else failExit .invalidPaddingConfig { s with regs.imgSize := some (BitVec.ofNat 64 file.length) }) := by
  have hd' : latchedPadding { s with regs.imgSize := some (BitVec.ofNat 64 file.length) } = .ok d := hd
  rw [blockStep_sizeValidate_eq h]
  simp only [toolSizeValidate, hf, hx, hd', Bool.false_eq_true, if_false]
  cases d with
  | none => by_cases h4 : file.length % 4 = 0 <;> simp [h4]
  | some d =>
    cases hp : padOk d.1 d.2 file.length with
    | false => simp [hp]
    | true => by_cases h4 : file.length % 4 = 0 <;> simp [hp, h4]

/-- Settles O30: the bound first, then the checks by the latched descriptor. -/
theorem sizeValidateChecksInOrder : Obligations.SizeValidateChecksInOrder := by
  intro s file h hf
  refine ⟨fun m hm hlt => blockStep_sizeValidate_stuck h hf (exceedsMaxImage_of_lt hm hlt), fun hle =>
    ⟨fun target fill hreq ht hfill => ?padded, fun hreq => ?unpadded⟩⟩
  case padded =>
    have hchecks := blockStep_sizeValidate_checks h hf (exceedsMaxImage_eq_false.mpr hle)
      (latchedPadding_some.mpr ⟨hreq, ht, hfill⟩)
    exact ⟨fun hp => by simp [hchecks, hp], fun hp h4 => by simp [hchecks, hp, h4],
      fun hp h4 => by simp [hchecks, hp, h4]⟩
  case unpadded =>
    have hchecks := blockStep_sizeValidate_checks h hf (exceedsMaxImage_eq_false.mpr hle) (latchedPadding_none hreq)
    exact ⟨fun h4 => by simp [hchecks, h4], fun h4 => by simp [hchecks, h4]⟩

theorem runsAt.not_halted {q : SeqState} {s : State} (h : runsAt q s) : halted s = false := by
  obtain ⟨hh, -⟩ := h
  exact hh

/-- A step of the sequencer that keeps STATUS goes on to the state it writes. -/
theorem runsAt.goesTo {s t : State} {q q' : SeqState} (h : runsAt q s) (hs : t.status = s.status)
    (hw : t.engine.widx = none) (hq : t.regs.seqState = q') : runsAt q' t := by
  obtain ⟨hh, hb, -, -⟩ := h
  exact ⟨by rwa [halted, hs], by rwa [hs], hw, hq⟩

/-- Settles O49: the stuck step leaves a state that is stuck in the same way, by induction on the steps. -/
theorem oversizedImageIsStuck : Obligations.OversizedImageIsStuck := by
  intro s file m k h hq hf hm hlt
  have hstep (u : State) (hu : runsAt .sizeValidate u) (huf : u.host.file = some file)
      (hup : u.params = s.params) :=
    blockStep_sizeValidate_stuck hu huf (hup ▸ exceedsMaxImage_of_lt hm hlt)
  induction k generalizing s with
  | zero => rw [run_quiet hq h.busy (hstep s h hf rfl), run_zero]
  | succ k ih =>
    rw [run_quiet hq h.busy (hstep s h hf rfl)]
    exact ih _ (h.goesTo rfl h.widx h.seqState) hq hf hm hstep

/-! ### READ_BUFFER (R119) -/

/-- A file call goes on with what its forced answer and the next of the queue have in common. -/
theorem onAnswer_cons {α : Type} {s : State} {f : Option α} {a : α} {q : List α} {k : α → Result} {r : Result}
    (hforced : ∀ b, f = some b → k b = r) (ha : k a = r) : onAnswer s f (a :: q) k = r := by
  cases f with
  | none => exact ha
  | some b => rw [onAnswer_forced, hforced b rfl]

/-- A read of no bytes needs no answer. -/
theorem blockStep_readBuffer_empty {s : State} (h : runsAt .readBuffer s) (hf : s.host.file = some []) :
    blockStep s = .next
      { s with
        host.readAnswers := s.host.readAnswers.tail, tool.img := some [], regs.seqState := .computeCrc } := by
  simp [blockStep_of_runsAt h, toolStep, h.seqState, toolReadBuffer, hf, memRead]

/-- An answered read delivers the image or fails. -/
theorem blockStep_readBuffer_answered {s : State} {file : List Byte} {a : ReadAnswer} {rest : List ReadAnswer}
    (h : runsAt .readBuffer s) (hf : s.host.file = some file) (ha : s.host.readAnswers = a :: rest) :
    blockStep s = .next
      (if a.delivered file.length < file.length then failExit .readError { s with host.readAnswers := rest }
      else { s with host.readAnswers := rest, tool.img := some file, regs.seqState := .computeCrc }) := by
  simp only [blockStep_of_runsAt h, toolStep, h.seqState, toolReadBuffer, hf, ha, List.tail_cons, memRead,
    List.take_length]
  refine onAnswer_cons (fun b hb => ?_) (apply_ite _ _ _ _).symm
  have hn : file.length = 0 := by by_contra hn; simp [hn] at hb
  have hnot (c : ReadAnswer) : ¬c.delivered file.length < file.length := by omega
  rw [if_neg (hnot b), if_neg (hnot a)]

theorem blockStep_readBuffer_reads {s : State} {file : List Byte} {rest : List ReadAnswer} (h : runsAt .readBuffer s)
    (hf : s.host.file = some file) (ha : s.host.readAnswers = .all :: rest) :
    blockStep s = .next
      { s with host.readAnswers := rest, tool.img := some file, regs.seqState := .computeCrc } := by
  have hall : ¬ReadAnswer.all.delivered file.length < file.length := lt_irrefl file.length
  rw [blockStep_readBuffer_answered h hf ha, if_neg hall]

/-- Settles O32: the bytes delivered decide, and a read of no bytes has them all. -/
theorem readBufferReadsTheImageOrFails : Obligations.ReadBufferReadsTheImageOrFails := by
  intro s file h hf
  refine ⟨fun k rest ha hk => ?_, fun _ => blockStep_readBuffer_reads h hf,
    fun he => ⟨_, blockStep_readBuffer_empty h (he ▸ hf)⟩⟩
  have hshort : (ReadAnswer.short k).delivered file.length < file.length := (Nat.min_le_left k _).trans_lt hk
  rw [blockStep_readBuffer_answered h hf ha, if_pos hshort]

/-! ### COMPUTE_CRC and ZERO_CRC_CHECK (R120, R121) -/

/-- The request leaves WIDX as it is in a run: without a value (R34, R102). -/
theorem blockStep_computeCrc {s : State} {img : List Byte} (h : runsAt .computeCrc s) (ht : tableBuilt s)
    (hi : s.tool.img = some img) :
    blockStep s = .next
      { s with
        regs.toolCrc := some (crc32 s.params.byteOrder img), tool.img := none, regs.seqState := .zeroCrcCheck
        engine.acc := some (accAfter revTable s.params.byteOrder img) } := by
  simp only [blockStep_of_runsAt h, toolStep, h.seqState, toolComputeCrc, hi,
    engineRequest_built _ _ (builtTable_of_tableBuilt ht), revw_accAfter, h.widx]

/-- A run has its table, whatever its sequencer state (R114). -/
theorem Coherent.tableBuilt_of_runsAt {s : State} (h : Coherent s) {q : SeqState} (hr : runsAt q s) :
    tableBuilt s := by
  obtain ⟨hv, -⟩ := h.runInvAt hr
  exact tableBuilt_of_valid h.table hv

/-- Settles O33, by the request on a built table; the invariant has the table and the image. -/
theorem computeCrcSetsToolCrc : Obligations.ComputeCrcSetsToolCrc := by
  refine fun s hr => ⟨fun img ht hi _ => ⟨_, blockStep_computeCrc hr ht hi⟩,
    fun h => ⟨h.tableBuilt_of_runsAt hr, ?_⟩⟩
  obtain ⟨-, -, -, -, file, hf, hi, -, h4, -⟩ := h.runInvAt hr
  exact ⟨file, hi, hf, h4⟩

theorem blockStep_zeroCrcCheck {s : State} {crc : Word} {padReq : Bool} (h : runsAt .zeroCrcCheck s)
    (hc : s.regs.toolCrc = some crc) (hp : s.tool.runPadReq = some padReq) :
    blockStep s = .next
      (if crc = 0#32 ∧ padReq = false then failExit .alreadyChecksummed s
      else { s with regs.seqState := .openAppend }) := by
  simp only [blockStep_of_runsAt h, toolStep, h.seqState, toolZeroCrcCheck, hc, hp, ← apply_ite]

/-- Settles O34. -/
theorem zeroCrcCheckFollowsThePolicy : Obligations.ZeroCrcCheckFollowsThePolicy := by
  intro s crc padReq h hc hp
  rw [blockStep_zeroCrcCheck h hc hp]
  exact ⟨fun hz hreq => by rw [if_pos ⟨hz, hreq⟩], fun hn => by rw [if_neg hn]⟩

/-! ### OPEN_APPEND (R122) -/

theorem blockStep_openAppend_fails {s : State} {padReq : Bool} {rest : List OpenAnswer} (h : runsAt .openAppend s)
    (hp : s.tool.runPadReq = some padReq) (ha : s.host.openAppendAnswers = .fail :: rest) :
    blockStep s = .next (failExit .fileOpenErrorAppend { s with host.openAppendAnswers := rest }) := by
  simp only [blockStep_of_runsAt h, toolStep, h.seqState, toolOpenAppend, hp, ha, onAnswer_queued, List.tail_cons]

theorem blockStep_openAppend_opens {s : State} {padReq : Bool} {rest : List OpenAnswer} (h : runsAt .openAppend s)
    (hp : s.tool.runPadReq = some padReq) (ha : s.host.openAppendAnswers = .ok :: rest) :
    blockStep s = .next
      { s with
        host.openAppendAnswers := rest, tool.apOpen := true
        regs.seqState := if padReq then .pad else .writeCrc } := by
  simp only [blockStep_of_runsAt h, toolStep, h.seqState, toolOpenAppend, hp, ha, onAnswer_queued, List.tail_cons]

/-- Settles O35: the answer decides, and the latched descriptor says where the run goes on. -/
theorem openAppendOpensOrFails : Obligations.OpenAppendOpensOrFails :=
  fun _ _ h => ⟨fun _ => blockStep_openAppend_fails h, blockStep_openAppend_opens h, blockStep_openAppend_opens h⟩

/-! ### PAD (R123) -/

/-- What PAD has written when its append is answered: PAD_LEN, the CRC of the pad, and FILE, which is now `out`. -/
def padWritten (target fill : Int) (n : Nat) (out : List Byte) (s : State) : State :=
  { s with
    host.padWriteAnswers := s.host.padWriteAnswers.tail, host.file := some out
    regs.padLen := some (BitVec.ofInt 64 (target - 4 - n))
    regs.toolCrc := some (crc32 s.params.byteOrder (padOf target fill n))
    engine.acc := some (accAfter revTable s.params.byteOrder (padOf target fill n)), tool.padbuf := none }

/-- The state PAD leaves when its append has the answer `a`. -/
def padOutcome (target fill : Int) (n : Nat) (file : List Byte) (a : WriteAnswer) (s : State) : State :=
  if a.complete (padOf target fill n) then
    { padWritten target fill n (file ++ padOf target fill n) s with regs.seqState := .writeCrc }
  else failExit .writeErrorPad (padWritten target fill n (memAppend file (padOf target fill n) a) s)

theorem padOutcome_complete {target fill : Int} {n : Nat} {a : WriteAnswer} (file : List Byte) (s : State)
    (h : a.complete (padOf target fill n) = true) :
    padOutcome target fill n file a s =
      { padWritten target fill n (file ++ padOf target fill n) s with regs.seqState := .writeCrc } :=
  if_pos h

theorem padOutcome_short {target fill : Int} {n : Nat} {a : WriteAnswer} (file : List Byte) (s : State)
    (h : a.complete (padOf target fill n) = false) :
    padOutcome target fill n file a s =
      failExit .writeErrorPad (padWritten target fill n (memAppend file (padOf target fill n) a) s) :=
  if_neg (Bool.eq_false_iff.mp h)

/-- In a run the request gives the CRC of the pad and leaves WIDX as it is: without a value (R34, R102). -/
theorem blockStep_pad {s : State} {target fill : Int} {n : Dword} {file : List Byte} (h : runsAt .pad s)
    (ht : tableBuilt s) (hd : latchedPadding s = .ok (some (target, fill))) (hn : s.regs.imgSize = some n)
    (hf : s.host.file = some file) :
    blockStep s =
      onAnswer s (if padOf target fill n.toNat = [] then some .all else none) s.host.padWriteAnswers
        fun a => .next (padOutcome target fill n.toNat file a s) := by
  simp only [blockStep_of_runsAt h, toolStep, h.seqState, toolPad, hd, hn, hf]
  congr 1
  funext a
  rw [engineRequest_built (t := revTable), revw_accAfter]
  · cases hc : a.complete (padOf target fill n.toNat) with
    | true => simp [padOutcome_complete _ _ hc, padWritten, memAppend, appended_of_complete hc, hn, h.widx]
    | false => simp [padOutcome_short _ _ hc, padWritten, hn, h.widx, h.seqState, failExit]
  · exact builtTable_of_tableBuilt ht

/-- A pad of no bytes needs no answer. -/
theorem blockStep_pad_empty {s : State} {target fill : Int} {n : Dword} {file : List Byte} (h : runsAt .pad s)
    (ht : tableBuilt s) (hd : latchedPadding s = .ok (some (target, fill))) (hn : s.regs.imgSize = some n)
    (hf : s.host.file = some file) (hnil : padOf target fill n.toNat = []) :
    blockStep s = .next (padOutcome target fill n.toNat file .all s) := by
  rw [blockStep_pad h ht hd hn hf, if_pos hnil, onAnswer_forced]

theorem blockStep_pad_answered {s : State} {target fill : Int} {n : Dword} {file : List Byte} {a : WriteAnswer}
    {rest : List WriteAnswer} (h : runsAt .pad s) (ht : tableBuilt s)
    (hd : latchedPadding s = .ok (some (target, fill))) (hn : s.regs.imgSize = some n)
    (hf : s.host.file = some file) (ha : s.host.padWriteAnswers = a :: rest) :
    blockStep s = .next (padOutcome target fill n.toNat file a s) := by
  rw [blockStep_pad h ht hd hn hf, ha]
  refine onAnswer_cons (fun b hb => ?_) rfl
  have hnil : padOf target fill n.toNat = [] := by by_contra hnil; simp [hnil] at hb
  have hcomplete (c : WriteAnswer) : c.complete (padOf target fill n.toNat) = true := by rw [hnil, complete_nil]
  rw [padOutcome_complete file s (hcomplete b), padOutcome_complete file s (hcomplete a)]

/-- PAD_LEN is the length of the pad: a validated pad length is not negative (R118). -/
theorem ofInt_padLen {target fill : Int} {n : Nat} (h : padOk target fill n = true) :
    BitVec.ofInt 64 (target - 4 - n) = BitVec.ofNat 64 (padOf target fill n).length := by
  obtain ⟨-, -, hsize, -⟩ := padOk_iff.mp h
  rw [length_padOf, ← BitVec.ofInt_natCast, Int.toNat_of_nonneg (by omega)]

/-- Settles O36, by the answer: all of the pad, a pad of no bytes, or fewer bytes than the pad. -/
theorem padReplacesTheCrcAndAppends : Obligations.PadReplacesTheCrcAndAppends := by
  intro s target fill n file h ht hreq htarget hfill hn hf hok _ pad padCrc
  have hd := latchedPadding_some.mpr ⟨hreq, htarget, hfill⟩
  have hlen := ofInt_padLen hok
  refine ⟨fun rest ha => ?all, fun hnil => ?empty, fun g rest ha hg => ?short⟩
  case all =>
    have hb := blockStep_pad_answered h ht hd hn hf ha
    rw [padOutcome_complete _ _ (complete_all _), padWritten, hlen, ha] at hb
    exact ⟨_, hb⟩
  case empty =>
    have hnil : padOf target fill n.toNat = [] := hnil
    have hb := blockStep_pad_empty h ht hd hn hf hnil
    rw [padOutcome_complete _ _ (complete_all _), padWritten, hlen, hnil, List.append_nil, ← hf] at hb
    exact ⟨_, _, hb⟩
  case short =>
    have hg : g.length < (padOf target fill n.toNat).length := hg
    have hb := blockStep_pad_answered h ht hd hn hf ha
    rw [padOutcome_short _ _ (complete_short_of_lt hg), padWritten, hlen, ha, memAppend, appended_short_of_lt hg] at hb
    exact ⟨_, hb⟩

/-! ### WRITE_CRC and DONE (R124, R125) -/

theorem blockStep_writeCrc {s : State} {crc : Word} {file : List Byte} {a : WriteAnswer} {rest : List WriteAnswer}
    (h : runsAt .writeCrc s) (hc : s.regs.toolCrc = some crc) (hf : s.host.file = some file)
    (ha : s.host.crcWriteAnswers = a :: rest) :
    blockStep s = .next
      (if a.complete (bytes32 s.params.byteOrder crc) then
        { s with
          host.crcWriteAnswers := rest, host.file := some (file ++ bytes32 s.params.byteOrder crc)
          regs.seqState := .done }
      else
        failExit .writeErrorCrc
          { s with
            host.crcWriteAnswers := rest
            host.file := some (memAppend file (bytes32 s.params.byteOrder crc) a) }) := by
  simp only [blockStep_of_runsAt h, toolStep, h.seqState, toolWriteCrc, hc, hf, ha, onAnswer_queued, List.tail_cons]
  split
  · rename_i hcomp
    rw [memAppend, appended_of_complete hcomp]
  · rfl

/-- Settles O37: the answer is complete, or shorter than the four bytes of a word. -/
theorem writeCrcAppendsFourBytes : Obligations.WriteCrcAppendsFourBytes := by
  intro s crc file h hc hf
  refine ⟨fun rest ha => ?_, fun g rest ha hg => ?_⟩
  · rw [blockStep_writeCrc h hc hf ha, complete_all, if_pos rfl]
  · have hshort : g.length < (bytes32 s.params.byteOrder crc).length := by rwa [length_bytes32]
    rw [blockStep_writeCrc h hc hf ha, complete_short_of_lt hshort, memAppend, appended_short_of_lt hshort]
    rfl

/-- The state a successful run ends in (R125). -/
def runDone (s : State) : State :=
  { s with
    tool.rdOpen := false, tool.apOpen := false
    status.cause := .none, status.exit := .success, status.busy := false, status.done := true }

theorem blockStep_done {s : State} (h : runsAt .done s) : blockStep s = .next (runDone s) := by
  rw [blockStep_of_runsAt h, toolStep, h.seqState]
  rfl

/-- Settles O38: the run ends, and a block that executes no command stays. -/
theorem doneEndsTheRun : Obligations.DoneEndsTheRun := by
  intro s h
  have hready : ready (runDone s) := ⟨h.not_halted, rfl⟩
  exact ⟨runDone s, blockStep_done h, hready, blockStep_of_idle hready.2, h.seqState, rfl⟩

/-! ### The transition table (R130) -/

/-- What R130 allows a step to do to SEQ_STATE. -/
def seqStateFollows (s t : State) : Prop :=
  t.regs.seqState = s.regs.seqState ∨ nextOnSuccess s.regs.seqState t.regs.seqState = true ∨
    (t.regs.seqState = .fail ∧ ∃ c, t.status.cause = .run c ∧ s.regs.seqState = raisedIn c)

theorem runsAt.follows_next {s t : State} {q : SeqState} (h : runsAt q s)
    (hn : nextOnSuccess q t.regs.seqState = true) : seqStateFollows s t :=
  .inr (.inl (h.seqState.symm ▸ hn))

theorem runsAt.follows_fail {s : State} {c : RunFailure} (h : runsAt (raisedIn c) s) (u : State) :
    seqStateFollows s (failExit c u) :=
  .inr (.inr ⟨rfl, c, rfl, h.seqState⟩)

/-- Each outcome of a step of the block is a row of the table, a failure exit from its own state, or leaves
SEQ_STATE. -/
theorem BlockCase.seqStateFollows {s t : State} (hc : BlockCase s t) : seqStateFollows s t := by
  cases hc with
  | openReadFails h => exact h.follows_fail (c := .fileOpenErrorRead) _
  | openReadOpens h => exact h.follows_next rfl
  | sizeBadPadding h => exact h.follows_fail (c := .invalidPaddingConfig) _
  | sizeUnaligned h => exact h.follows_fail (c := .unalignedImageSize) _
  | sizeValid h => exact h.follows_next rfl
  | readFails h => exact h.follows_fail (c := .readError) _
  | readReads h => exact h.follows_next rfl
  | computes h => exact h.follows_next rfl
  | zeroCrcFails h => exact h.follows_fail (c := .alreadyChecksummed) _
  | zeroCrcPasses h => exact h.follows_next rfl
  | openAppendFails h => exact h.follows_fail (c := .fileOpenErrorAppend) _
  | openAppendOpens h padReq => exact h.follows_next (by cases padReq <;> rfl)
  | padWrites h => exact h.follows_next rfl
  | padShort h => exact h.follows_fail (c := .writeErrorPad) _
  | crcWrites h => exact h.follows_next rfl
  | crcShort h => exact h.follows_fail (c := .writeErrorCrc) _
  | _ => exact .inl rfl

/-- A run starts from IDLE, DONE or FAIL: there the invariant has a block that executes no command (log 13). -/
theorem Coherent.nextOnSuccess_of_ready {s : State} (h : Coherent s) (hr : ready s) :
    nextOnSuccess s.regs.seqState .openRead = true := by
  obtain ⟨-, hb⟩ := hr
  obtain ⟨-, -, ho⟩ := h.idle hb
  unfold outcomeInv at ho
  split at ho
  next hq => rw [hq]; rfl
  next hq => rw [hq]; rfl
  next hq => rw [hq]; rfl
  next => exact ho.elim

theorem StepEffect.seqStateFollows {s t : State} (he : StepEffect s t) (h : Coherent s) :
    Machine.seqStateFollows s t := by
  cases he with
  | block rest hc => exact hc.seqStateFollows
  | runStartsPadded rest hi => exact .inr (.inl (h.nextOnSuccess_of_ready hi.ready))
  | runStartsUnpadded rest hi => exact .inr (.inl (h.nextOnSuccess_of_ready hi.ready))
  | _ => exact .inl rfl

/-- Settles O44: only a step of the block and the issue of a run change SEQ_STATE. -/
theorem sequencerFollowsItsTable : Obligations.SequencerFollowsItsTable :=
  fun _ _ h hstep hreset => (step_effect_of_noReset hstep hreset).seqStateFollows h

/-! ### Runs with a quiet host (R113, R130) -/

/-- A run in progress at sequencer state `q`, in a state of the invariant, with a host that leaves the block alone. -/
structure QuietRun (q : SeqState) (s : State) : Prop where
  coherent : Coherent s
  quiet : hostQuiet s
  runs : runsAt q s

/-- START begins such a run. -/
theorem Coherent.quietRun {s : State} (h : Coherent s) (hr : ready s) (hq : hostQuiet s) (ops : ToolOperands) :
    QuietRun .openRead (Machine.startRun ops s) := by
  obtain ⟨hw, -⟩ := h.idle hr.2
  obtain ⟨_ | ⟨target, fill⟩⟩ := ops
  · exact ⟨h.startRun hr _, hq, hr.1, rfl, hw, rfl⟩
  · exact ⟨h.startRun hr _, hq, hr.1, rfl, hw, rfl⟩

/-- The run goes on to the state its step writes. -/
theorem QuietRun.step {s t : State} {q q' : SeqState} (h : QuietRun q s) (hb : blockStep s = .next t)
    (hscript : t.host.script = s.host.script) (hs : t.status = s.status) (hw : t.engine.widx = none)
    (hq : t.regs.seqState = q') : QuietRun q' t :=
  ⟨(blockStep_case hb).coherent h.coherent, by simpa only [hostQuiet, hscript] using h.quiet,
    h.runs.goesTo hs hw hq⟩

theorem QuietRun.run_succ {s t : State} {q : SeqState} (h : QuietRun q s) (k : Nat) (hb : blockStep s = .next t) :
    core.run (k + 1) s = core.run k t :=
  run_quiet h.quiet h.runs.busy hb

theorem QuietRun.tableBuilt {s : State} {q : SeqState} (h : QuietRun q s) : tableBuilt s :=
  h.coherent.tableBuilt_of_runsAt h.runs

/-! ### Runs whose file calls succeed (R113) -/

/-- What the steps from OPEN_READ to COMPUTE_CRC leave of a run on the image `file`. -/
def crcComputed (file : List Byte) (s : State) : State :=
  { s with
    host.openReadAnswers := s.host.openReadAnswers.tail, host.readAnswers := s.host.readAnswers.tail
    tool.rdOpen := true, tool.img := none
    regs.imgSize := some (BitVec.ofNat 64 file.length), regs.toolCrc := some (crc32 s.params.byteOrder file)
    regs.seqState := .zeroCrcCheck, engine.acc := some (accAfter revTable s.params.byteOrder file) }

/-- What ZERO_CRC_CHECK and OPEN_APPEND leave of a run that passes them. -/
def appendOpened (padReq : Bool) (s : State) : State :=
  { s with
    host.openAppendAnswers := s.host.openAppendAnswers.tail, tool.apOpen := true
    regs.seqState := if padReq then .pad else .writeCrc }

/-- What a complete PAD leaves. -/
def padAppended (target fill : Int) (n : Nat) (file : List Byte) (s : State) : State :=
  { padWritten target fill n (file ++ padOf target fill n) s with regs.seqState := .writeCrc }

/-- What a complete WRITE_CRC leaves. -/
def crcAppended (crc : Word) (file : List Byte) (s : State) : State :=
  { s with
    host.crcWriteAnswers := s.host.crcWriteAnswers.tail
    host.file := some (file ++ bytes32 s.params.byteOrder crc), regs.seqState := .done }

/-- Four steps open FILE, validate its size, read it and compute its CRC. -/
theorem QuietRun.computesCrc {s : State} {file : List Byte} {d : Option (Int × Int)} (h : QuietRun .openRead s)
    (hf : s.host.file = some file) (ha : allSucceed s.host) (hx : exceedsMaxImage s.params file.length = false)
    (h4 : file.length % 4 = 0) (hd : latchedPadding s = .ok d)
    (hp : ∀ p ∈ d, padOk p.1 p.2 file.length = true) (k : Nat) :
    core.run (k + 4) s = core.run k (crcComputed file s) ∧ QuietRun .zeroCrcCheck (crcComputed file s) := by
  obtain ⟨hopen, hread, -⟩ := ha
  have hb1 := blockStep_openRead_opens h.runs hf (List.cons_head?_tail hopen).symm
  have h1 : QuietRun .sizeValidate _ := h.step hb1 rfl rfl h.runs.widx rfl
  have hb2 := blockStep_sizeValidate_checks h1.runs hf hx hd
  rw [if_pos hp, if_pos h4] at hb2
  have h2 : QuietRun .readBuffer _ := h1.step hb2 rfl rfl h.runs.widx rfl
  have hb3 := blockStep_readBuffer_reads h2.runs hf (List.cons_head?_tail hread).symm
  have h3 : QuietRun .computeCrc _ := h2.step hb3 rfl rfl h.runs.widx rfl
  have hb4 := blockStep_computeCrc h3.runs h3.tableBuilt rfl
  refine ⟨?_, h3.step hb4 rfl rfl h.runs.widx rfl⟩
  rw [h.run_succ _ hb1, h1.run_succ _ hb2, h2.run_succ _ hb3, h3.run_succ _ hb4]
  rfl

/-- Two steps check the CRC and open FILE for append. -/
theorem QuietRun.opensAppend {s : State} {crc : Word} {padReq : Bool} (h : QuietRun .zeroCrcCheck s)
    (hc : s.regs.toolCrc = some crc) (hp : s.tool.runPadReq = some padReq) (hn : ¬(crc = 0#32 ∧ padReq = false))
    (ha : s.host.openAppendAnswers.head? = some .ok) (k : Nat) :
    core.run (k + 2) s = core.run k (appendOpened padReq s) ∧
      QuietRun (if padReq then .pad else .writeCrc) (appendOpened padReq s) := by
  have hb1 := blockStep_zeroCrcCheck h.runs hc hp
  rw [if_neg hn] at hb1
  have h1 : QuietRun .openAppend _ := h.step hb1 rfl rfl h.runs.widx rfl
  have hb2 := blockStep_openAppend_opens h1.runs hp (List.cons_head?_tail ha).symm
  refine ⟨?_, h1.step hb2 rfl rfl h.runs.widx rfl⟩
  rw [h.run_succ _ hb1, h1.run_succ _ hb2]
  rfl

/-- One step appends the pad. -/
theorem QuietRun.appendsPad {s : State} {target fill : Int} {n : Dword} {file : List Byte} (h : QuietRun .pad s)
    (hd : latchedPadding s = .ok (some (target, fill))) (hn : s.regs.imgSize = some n)
    (hf : s.host.file = some file) (ha : s.host.padWriteAnswers.head? = some .all) (k : Nat) :
    core.run (k + 1) s = core.run k (padAppended target fill n.toNat file s) ∧
      QuietRun .writeCrc (padAppended target fill n.toNat file s) := by
  have hb := blockStep_pad_answered h.runs h.tableBuilt hd hn hf (List.cons_head?_tail ha).symm
  rw [padOutcome_complete _ _ (complete_all _)] at hb
  exact ⟨h.run_succ k hb, h.step hb rfl rfl h.runs.widx rfl⟩

/-- Two steps append the CRC and end the run. -/
theorem QuietRun.appendsCrc {s : State} {crc : Word} {file : List Byte} (h : QuietRun .writeCrc s)
    (hc : s.regs.toolCrc = some crc) (hf : s.host.file = some file) (ha : s.host.crcWriteAnswers.head? = some .all) :
    core.run 2 s = .next (runDone (crcAppended crc file s)) := by
  have hb1 := blockStep_writeCrc h.runs hc hf (List.cons_head?_tail ha).symm
  rw [complete_all, if_pos rfl] at hb1
  have h1 : QuietRun .done _ := h.step hb1 rfl rfl h.runs.widx rfl
  rw [h.run_succ 1 hb1, h1.run_succ 0 (blockStep_done h1.runs), run_zero]
  rfl

/-- The state an unpadded run on `file` ends in, `s` being the state before its START. -/
def unpaddedEnd (file : List Byte) (s : State) : State :=
  { s with
    status.busy := false, status.done := true, status.tblValid := true, status.cause := .none
    status.exit := .success
    regs.toolCrc := some (crc32 s.params.byteOrder file), regs.padLen := some 0#64
    regs.imgSize := some (BitVec.ofNat 64 file.length), regs.seqState := .done
    engine.rt := some revTable, engine.acc := some (accAfter revTable s.params.byteOrder file)
    tool.runPadReq := some false, tool.rdOpen := false, tool.apOpen := false, tool.img := none
    host.file := some (file ++ bytes32 s.params.byteOrder (crc32 s.params.byteOrder file))
    host.openReadAnswers := s.host.openReadAnswers.tail, host.readAnswers := s.host.readAnswers.tail
    host.openAppendAnswers := s.host.openAppendAnswers.tail
    host.crcWriteAnswers := s.host.crcWriteAnswers.tail }

/-- The state a padded run on `file` ends in, `s` being the state before its START. -/
def paddedEnd (target fill : Int) (file : List Byte) (s : State) : State :=
  { s with
    status.busy := false, status.done := true, status.tblValid := true, status.cause := .none
    status.exit := .success
    regs.toolCrc := some (crc32 s.params.byteOrder (padOf target fill file.length))
    regs.padLen := some (BitVec.ofNat 64 (padOf target fill file.length).length)
    regs.imgSize := some (BitVec.ofNat 64 file.length), regs.seqState := .done
    engine.rt := some revTable
    engine.acc := some (accAfter revTable s.params.byteOrder (padOf target fill file.length))
    tool.runPadReq := some true, tool.runTarget := some target, tool.runFill := some fill
    tool.rdOpen := false, tool.apOpen := false, tool.img := none, tool.padbuf := none
    host.file := some (file ++ padOf target fill file.length ++
      bytes32 s.params.byteOrder (crc32 s.params.byteOrder (padOf target fill file.length)))
    host.openReadAnswers := s.host.openReadAnswers.tail, host.readAnswers := s.host.readAnswers.tail
    host.openAppendAnswers := s.host.openAppendAnswers.tail
    host.padWriteAnswers := s.host.padWriteAnswers.tail
    host.crcWriteAnswers := s.host.crcWriteAnswers.tail }

theorem run_unpadded {s : State} {file : List Byte} (h : Coherent s) (hr : ready s) (hq : hostQuiet s)
    (hf : s.host.file = some file) (h4 : file.length % 4 = 0) (hx : exceedsMaxImage s.params file.length = false)
    (hc : crc32 s.params.byteOrder file ≠ 0#32) (ha : allSucceed s.host) :
    core.run 8 (startRun ⟨none⟩ s) = .next (unpaddedEnd file s) := by
  obtain ⟨hrun1, h1⟩ := (h.quietRun hr hq ⟨none⟩).computesCrc (d := none) hf ha hx h4 rfl (by simp) 4
  obtain ⟨-, -, hopen, -, hwrite⟩ := ha
  obtain ⟨hrun2, h2⟩ := h1.opensAppend (padReq := false) rfl rfl (fun hz => hc hz.1) hopen 2
  rw [hrun1, hrun2, h2.appendsCrc rfl hf hwrite]
  rfl

/-- A pad that is validated against a register's target belongs to an image whose size the register holds. -/
theorem toNat_imgSize_of_padOk {target : Dword} {fill : Int} {n : Nat} (h : padOk target.toInt fill n = true) :
    (BitVec.ofNat 64 n).toNat = n := by
  obtain ⟨-, -, hsize, -⟩ := padOk_iff.mp h
  have := BitVec.two_mul_toInt_lt (x := target)
  rw [BitVec.toNat_ofNat, Nat.mod_eq_of_lt (by omega)]

theorem run_padded {s : State} {file : List Byte} {target : Dword} {fill : Int} (h : Coherent s) (hr : ready s)
    (hq : hostQuiet s) (hf : s.host.file = some file) (h4 : file.length % 4 = 0)
    (hx : exceedsMaxImage s.params file.length = false) (hok : padOk target.toInt fill file.length = true)
    (ha : allSucceed s.host) :
    core.run 9 (startRun ⟨some (target.toInt, fill)⟩ s) = .next (paddedEnd target.toInt fill file s) := by
  obtain ⟨hrun1, h1⟩ := (h.quietRun hr hq ⟨some (target.toInt, fill)⟩).computesCrc
    (d := some (target.toInt, fill)) hf ha hx h4 rfl (by simpa using hok) 5
  obtain ⟨-, -, hopen, hpad, hwrite⟩ := ha
  obtain ⟨hrun2, h2⟩ := h1.opensAppend (padReq := true) rfl rfl nofun hopen 3
  obtain ⟨hrun3, h3⟩ := h2.appendsPad (target := target.toInt) (fill := fill) rfl rfl hf hpad 2
  rw [toNat_imgSize_of_padOk hok] at hrun3 h3
  rw [hrun1, hrun2, hrun3, h3.appendsCrc rfl rfl hwrite]
  simp only [paddedEnd, ← ofInt_padLen hok, runDone, crcAppended, padAppended, padWritten, appendOpened, crcComputed,
    startRun, beginCommand, buildTable, if_true]

/-- Settles O54: what the run leaves is read off its last state. -/
theorem unpaddedRunAppendsTheImageCrc : Obligations.UnpaddedRunAppendsTheImageCrc := by
  intro s file h hr hq hreq hf h4 hx hc ha
  obtain ⟨hfault, hrefused⟩ := bits_of_not_halted hr.1
  exact ⟨_, unpaddedEnd file s, exec_toolRun_ready hr (toolOperands_unpadded hreq),
    run_unpadded h hr hq hf h4 hx hc ha, rfl, rfl, rfl, rfl, rfl, rfl, rfl, rfl, rfl, hfault, hrefused, rfl, rfl,
    rfl, rfl, rfl⟩

/-- Settles O55: what the run leaves is read off its last state, and the validated pad fills FILE up to the target. -/
theorem paddedRunAppendsThePadCrc : Obligations.PaddedRunAppendsThePadCrc := by
  intro s file target fill h hr hq hreq htarget hfill hf h4 hx hok ha pad
  obtain ⟨hfault, hrefused⟩ := bits_of_not_halted hr.1
  obtain ⟨-, -, -, hsize⟩ := (padValidationGuaranteesThePad target.toInt fill.toInt file.length).2 hok h4
  refine ⟨_, paddedEnd target.toInt fill.toInt file s, _,
    exec_toolRun_ready hr (toolOperands_padded hreq htarget hfill),
    run_padded h hr hq hf h4 hx hok ha, rfl, rfl, ?_, rfl, rfl, rfl, rfl, rfl, rfl, rfl,
    rfl, hfault, hrefused, rfl, rfl, rfl, rfl, rfl⟩
  rw [List.length_append, List.length_append, length_bytes32]
  exact hsize

/-- What a padded run appends to an image of `n` bytes. -/
def paddedTail (o : ByteOrder) (target fill : Int) (n : Nat) : List Byte :=
  padOf target fill n ++ bytes32 o (crc32 o (padOf target fill n))

theorem paddedEnd_file (target fill : Int) (file : List Byte) (s : State) :
    (paddedEnd target fill file s).host.file =
      some (file ++ paddedTail s.params.byteOrder target fill file.length) :=
  congrArg some (List.append_assoc _ _ _)

theorem paddedEnd_toolCrc (target fill : Int) (file : List Byte) (s : State) :
    (paddedEnd target fill file s).regs.toolCrc =
      some (crc32 s.params.byteOrder (padOf target fill file.length)) :=
  rfl

/-- Settles O58: what is appended and its CRC depend on the image's length only. -/
theorem paddedOutputIgnoresTheImage : Obligations.PaddedOutputIgnoresTheImage := by
  intro s1 s2 file1 file2 target fill hs hparams hf1 hf2 hlen h4 hx hok
  obtain ⟨h1, hr1, hq1, hreq1, htarget1, hfill1, ha1⟩ := hs s1 (by simp)
  obtain ⟨h2, hr2, hq2, hreq2, htarget2, hfill2, ha2⟩ := hs s2 (by simp)
  refine ⟨_, _, _, _, paddedTail s1.params.byteOrder target.toInt fill.toInt file1.length,
    exec_toolRun_ready hr1 (toolOperands_padded hreq1 htarget1 hfill1),
    exec_toolRun_ready hr2 (toolOperands_padded hreq2 htarget2 hfill2),
    run_padded h1 hr1 hq1 hf1 h4 hx hok ha1,
    run_padded h2 hr2 hq2 hf2 (hlen ▸ h4) (hparams ▸ hlen ▸ hx) (hlen ▸ hok) ha2,
    paddedEnd_file _ _ _ _, ?_, ?_, rfl, rfl⟩
  · rw [hparams, hlen, paddedEnd_file]
  · rw [paddedEnd_toolCrc, paddedEnd_toolCrc, hparams, hlen]

/-! ### Every answered run ends (R130) -/

/-- At most `n` steps from `s` a run has ended, in DONE or in FAIL. -/
def endsWithin (n : Nat) (s : State) : Prop :=
  ∃ u k, k ≤ n ∧ core.run k s = .next u ∧ u.status.busy = false ∧
    (u.regs.seqState = .done ∨ u.regs.seqState = .fail)

theorem endsWithin.mono {n m : Nat} {s : State} (h : endsWithin n s) (hle : n ≤ m) : endsWithin m s := by
  obtain ⟨u, k, hk, hu⟩ := h
  exact ⟨u, k, hk.trans hle, hu⟩

theorem failExit_endsWithin (c : RunFailure) (s : State) (n : Nat) : endsWithin n (failExit c s) :=
  ⟨_, 0, Nat.zero_le n, rfl, rfl, .inr rfl⟩

/-- One step more than from the state the block steps to. -/
theorem QuietRun.endsWithin_succ {s t : State} {q : SeqState} {n : Nat} (h : QuietRun q s)
    (hb : blockStep s = .next t) (ht : endsWithin n t) : endsWithin (n + 1) s := by
  obtain ⟨u, k, hk, hrun, hu⟩ := ht
  exact ⟨u, k + 1, Nat.succ_le_succ hk, (h.run_succ k hb).trans hrun, hu⟩

theorem QuietRun.ends_of_done {s : State} (h : QuietRun .done s) : endsWithin 1 s :=
  h.endsWithin_succ (n := 0) (blockStep_done h.runs) ⟨_, 0, le_rfl, rfl, rfl, .inl h.runs.seqState⟩

theorem QuietRun.ends_of_writeCrc {s : State} (h : QuietRun .writeCrc s) (hw : s.host.crcWriteAnswers ≠ []) :
    endsWithin 2 s := by
  obtain ⟨-, -, -, -, -, hfile, hcrc⟩ := h.coherent.runInvAt h.runs
  obtain ⟨file, hf⟩ := Option.isSome_iff_exists.mp hfile
  obtain ⟨crc, hc⟩ := Option.isSome_iff_exists.mp hcrc
  obtain ⟨a, rest, ha⟩ := List.exists_cons_of_ne_nil hw
  have hb := blockStep_writeCrc h.runs hc hf ha
  split at hb
  · exact h.endsWithin_succ hb (h.step hb rfl rfl h.runs.widx rfl).ends_of_done
  · exact h.endsWithin_succ hb (failExit_endsWithin _ _ _)

theorem QuietRun.ends_of_pad {s : State} (h : QuietRun .pad s) (hp : s.host.padWriteAnswers ≠ [])
    (hw : s.host.crcWriteAnswers ≠ []) : endsWithin 3 s := by
  obtain ⟨-, hlatch, -, -, -, hreq, file, hf, hsize, -⟩ := h.coherent.runInvAt h.runs
  obtain ⟨target, fill, hd⟩ := latchedPadding_requested hlatch hreq
  obtain ⟨a, rest, ha⟩ := List.exists_cons_of_ne_nil hp
  have hb := blockStep_pad_answered h.runs h.tableBuilt hd hsize hf ha
  unfold padOutcome at hb
  split at hb
  · exact h.endsWithin_succ hb ((h.step hb rfl rfl h.runs.widx rfl).ends_of_writeCrc hw)
  · exact h.endsWithin_succ hb (failExit_endsWithin _ _ _)

/-- The file calls from OPEN_APPEND on have answers waiting. -/
def appendsAnswered (h : HostSide) : Prop :=
  h.openAppendAnswers ≠ [] ∧ h.padWriteAnswers ≠ [] ∧ h.crcWriteAnswers ≠ []

theorem QuietRun.ends_of_openAppend {s : State} (h : QuietRun .openAppend s) (hans : appendsAnswered s.host) :
    endsWithin 4 s := by
  obtain ⟨ho, hp, hw⟩ := hans
  obtain ⟨-, hlatch, -⟩ := h.coherent.runInvAt h.runs
  obtain ⟨padReq, hreq⟩ := runPadReq_of_latchedInv hlatch
  obtain ⟨a, rest, ha⟩ := List.exists_cons_of_ne_nil ho
  cases a with
  | fail => exact h.endsWithin_succ (blockStep_openAppend_fails h.runs hreq ha) (failExit_endsWithin _ _ _)
  | ok =>
    have hb := blockStep_openAppend_opens h.runs hreq ha
    refine h.endsWithin_succ hb ?_
    cases padReq with
    | true => exact (h.step hb rfl rfl h.runs.widx rfl).ends_of_pad hp hw
    | false => exact ((h.step hb rfl rfl h.runs.widx rfl).ends_of_writeCrc hw).mono (by decide)

theorem QuietRun.ends_of_zeroCrcCheck {s : State} (h : QuietRun .zeroCrcCheck s) (hans : appendsAnswered s.host) :
    endsWithin 5 s := by
  obtain ⟨-, hlatch, -, -, -, file, -, -, hc⟩ := h.coherent.runInvAt h.runs
  obtain ⟨padReq, hreq⟩ := runPadReq_of_latchedInv hlatch
  have hb := blockStep_zeroCrcCheck h.runs hc hreq
  split at hb
  · exact h.endsWithin_succ hb (failExit_endsWithin _ _ _)
  · exact h.endsWithin_succ hb ((h.step hb rfl rfl h.runs.widx rfl).ends_of_openAppend hans)

theorem QuietRun.ends_of_computeCrc {s : State} (h : QuietRun .computeCrc s) (hans : appendsAnswered s.host) :
    endsWithin 6 s := by
  obtain ⟨-, -, -, -, file, -, hi, -⟩ := h.coherent.runInvAt h.runs
  have hb := blockStep_computeCrc h.runs h.tableBuilt hi
  exact h.endsWithin_succ hb ((h.step hb rfl rfl h.runs.widx rfl).ends_of_zeroCrcCheck hans)

theorem QuietRun.ends_of_readBuffer {s : State} (h : QuietRun .readBuffer s) (hr : s.host.readAnswers ≠ [])
    (hans : appendsAnswered s.host) : endsWithin 7 s := by
  obtain ⟨-, -, -, -, -, file, hf, -⟩ := h.coherent.runInvAt h.runs
  obtain ⟨a, rest, ha⟩ := List.exists_cons_of_ne_nil hr
  have hb := blockStep_readBuffer_answered h.runs hf ha
  split at hb
  · exact h.endsWithin_succ hb (failExit_endsWithin _ _ _)
  · exact h.endsWithin_succ hb ((h.step hb rfl rfl h.runs.widx rfl).ends_of_computeCrc hans)

theorem QuietRun.ends_of_sizeValidate {s : State} (h : QuietRun .sizeValidate s)
    (hx : ∀ file, s.host.file = some file → exceedsMaxImage s.params file.length = false)
    (hr : s.host.readAnswers ≠ []) (hans : appendsAnswered s.host) : endsWithin 8 s := by
  obtain ⟨-, hlatch, -, -, -, hfile⟩ := h.coherent.runInvAt h.runs
  obtain ⟨file, hf⟩ := Option.isSome_iff_exists.mp hfile
  obtain ⟨d, hd⟩ := latchedPadding_ok hlatch
  have hb := blockStep_sizeValidate_checks h.runs hf (hx file hf) hd
  split at hb
  · split at hb
    · exact h.endsWithin_succ hb ((h.step hb rfl rfl h.runs.widx rfl).ends_of_readBuffer hr hans)
    · exact h.endsWithin_succ hb (failExit_endsWithin _ _ _)
  · exact h.endsWithin_succ hb (failExit_endsWithin _ _ _)

theorem QuietRun.ends_of_openRead {s : State} (h : QuietRun .openRead s)
    (hx : ∀ file, s.host.file = some file → exceedsMaxImage s.params file.length = false)
    (hans : allAnswered s.host) : endsWithin 9 s := by
  obtain ⟨ho, hr, happends⟩ := hans
  obtain ⟨a, rest, ha⟩ := List.exists_cons_of_ne_nil ho
  cases a with
  | fail => exact h.endsWithin_succ (blockStep_openRead_fails h.runs ha) (failExit_endsWithin _ _ _)
  | ok =>
    cases hf : s.host.file with
    | none => exact h.endsWithin_succ (blockStep_openRead_absent h.runs hf) (failExit_endsWithin _ _ _)
    | some file =>
      have hb := blockStep_openRead_opens h.runs hf ha
      exact h.endsWithin_succ hb ((h.step hb rfl rfl h.runs.widx rfl).ends_of_sizeValidate hx hr happends)

/-- Settles O56: the table read from its end, each sequencer state one step further from DONE than the next. -/
theorem everyRunEndsWithinTenSteps : Obligations.EveryRunEndsWithinTenSteps := by
  intro s h hr hq hops hans hx
  obtain ⟨ops, hops⟩ := Option.isSome_iff_exists.mp hops
  obtain ⟨u, k, hk, hu⟩ := (h.quietRun hr hq ops).ends_of_openRead (by simpa using hx) (by simpa using hans)
  exact ⟨_, u, k, exec_toolRun_ready hr hops, hk, hu⟩

end Sys2Proof.Machine
end

section
/-! PROOF. The family 60_exceptions.md: what the failure exit and an engine fault record (O39, O40); a halted block is
frozen (O42); a file call without an answer waits (O48); and the outcome of every run that ends (O53). -/

namespace Sys2Proof.Machine

/-! ### What an exception records (R151, R153) -/

/-- Settles O39, the category by cause. -/
theorem failureExitRecordsTheCause : Obligations.FailureExitRecordsTheCause :=
  fun c _ => ⟨rfl, by cases c <;> rfl⟩

/-- Settles O40, the code by cause. -/
theorem engineFaultRecordsTheCause : Obligations.EngineFaultRecordsTheCause :=
  fun c _ => ⟨rfl, by cases c <;> rfl⟩

/-! ### A halted block (R157) -/

/-- Only the host's side differs in `t`, and FILE does not. -/
def hostSideOnly (s t : State) : Prop := ∃ hs : HostSide, t = { s with host := hs } ∧ hs.file = s.host.file

theorem hostSideOnly_refl (s : State) : hostSideOnly s s := ⟨s.host, rfl, rfl⟩

/-- On a halted block a read without a value records no second refusal (log 10). -/
theorem ReadCase.hostSideOnly {s t : State} (hc : ReadCase s t) (h : halted s = true) :
    Machine.hostSideOnly s t := by
  cases hc with
  | value v => exact ⟨_, rfl, rfl⟩
  | ignored => exact ⟨_, rfl, rfl⟩
  | refused hh => rw [h] at hh; cases hh

/-- Every move but a reset leaves a halted block alone (R157). -/
theorem hostMove_of_halted {s : State} {m : HostMove} (h : halted s = true) (hm : m ≠ .reset) :
    ∃ t, hostMove m s = .next t ∧ hostSideOnly s t := by
  cases m with
  | wr reg v =>
    refine ⟨s, ?_, hostSideOnly_refl s⟩
    by_cases h0 : reg = 0
    · rw [hostMove, if_pos h0, commandWrite_halted _ h]
    · rw [hostMove_wr v s h0, hostWrite_halted reg v h]
  | rd reg => exact ⟨_, rfl, (hostRead_case reg s).hostSideOnly h⟩
  | ebufWr off b => exact ⟨s, by rw [hostMove, hostEbufWrite_halted off b h], hostSideOnly_refl s⟩
  | wait => exact ⟨s, rfl, hostSideOnly_refl s⟩
  | idle => exact ⟨s, blockStep_of_halted h, hostSideOnly_refl s⟩
  | reset => exact absurd rfl hm

theorem step_of_halted {s : State} (h : halted s = true) (hreset : ∀ rest, s.host.script ≠ .reset :: rest) :
    ∃ t, step s = .next t ∧ hostSideOnly s t := by
  cases hs : s.host.script with
  | nil => exact ⟨s, (step_of_emptyScript hs).trans (blockStep_of_halted h), hostSideOnly_refl s⟩
  | cons m rest =>
    cases hw : stillWaiting s with
    | true => exact ⟨s, by simp only [step, nextMove, hs, hw, if_true, blockStep_of_halted h], hostSideOnly_refl s⟩
    | false =>
      rw [step_of_move hs hw]
      exact hostMove_of_halted (s := withScript s rest) h fun hm => hreset rest (hm ▸ hs)

theorem step_read_of_value {s : State} {r : Reg} {v : Dword} {rest : List HostMove}
    (hs : s.host.script = .rd r.number :: rest) (hv : regValue s r = some v) :
    step s = .next { withScript s rest with host.readValue := some v } := by
  have hread : readRegister (withScript s rest) r.number = some v := (readRegister_number _ r).trans hv
  rw [step_of_move hs (stillWaiting_of_ne_wait hs nofun), hostMove, hostRead_of_value hread]

/-- Settles O42: only the host's side can change, and a read that has a value returns it. -/
theorem haltedBlockIsFrozen : Obligations.HaltedBlockIsFrozen := by
  intro s h hreset
  obtain ⟨t, hstep, hs, rfl, hfile⟩ := step_of_halted h hreset
  refine ⟨_, hstep, rfl, rfl, rfl, rfl, rfl, rfl, hfile, fun r v rest hscript hv => ?_⟩
  rw [step_read_of_value hscript hv] at hstep
  cases hstep
  rfl

/-! ### Unanswered file calls (R161) -/

theorem blockStep_openRead_waits {s : State} {file : List Byte} (h : runsAt .openRead s)
    (hf : s.host.file = some file) (ha : s.host.openReadAnswers = []) : blockStep s = .next s := by
  simp only [blockStep_of_runsAt h, toolStep, h.seqState, toolOpenRead, hf, ha, reduceCtorEq, if_false,
    onAnswer_unanswered]

/-- A read of some bytes has no forced answer. -/
theorem blockStep_readBuffer_waits {s : State} {file : List Byte} (h : runsAt .readBuffer s)
    (hf : s.host.file = some file) (hne : file ≠ []) (ha : s.host.readAnswers = []) : blockStep s = .next s := by
  have hn : file.length ≠ 0 := fun h0 => hne (List.length_eq_zero_iff.mp h0)
  simp only [blockStep_of_runsAt h, toolStep, h.seqState, toolReadBuffer, hf, ha, if_neg hn, onAnswer_unanswered]

theorem blockStep_openAppend_waits {s : State} {padReq : Bool} (h : runsAt .openAppend s)
    (hp : s.tool.runPadReq = some padReq) (ha : s.host.openAppendAnswers = []) : blockStep s = .next s := by
  simp only [blockStep_of_runsAt h, toolStep, h.seqState, toolOpenAppend, hp, ha, onAnswer_unanswered]

/-- An append of some bytes has no forced answer. -/
theorem blockStep_pad_waits {s : State} {target fill : Int} {n : Dword} {file : List Byte} (h : runsAt .pad s)
    (hd : latchedPadding s = .ok (some (target, fill))) (hn : s.regs.imgSize = some n)
    (hf : s.host.file = some file) (hne : padOf target fill n.toNat ≠ []) (ha : s.host.padWriteAnswers = []) :
    blockStep s = .next s := by
  simp only [blockStep_of_runsAt h, toolStep, h.seqState, toolPad, hd, hn, hf, ha, if_neg hne, onAnswer_unanswered]

theorem blockStep_writeCrc_waits {s : State} {crc : Word} {file : List Byte} (h : runsAt .writeCrc s)
    (hc : s.regs.toolCrc = some crc) (hf : s.host.file = some file) (ha : s.host.crcWriteAnswers = []) :
    blockStep s = .next s := by
  simp only [blockStep_of_runsAt h, toolStep, h.seqState, toolWriteCrc, hc, hf, ha, onAnswer_unanswered]

/-- Settles O48, one lemma per file call. -/
theorem unansweredCallWaits : Obligations.UnansweredCallWaits := by
  intro s file hf
  refine ⟨fun h => blockStep_openRead_waits h hf, fun h => blockStep_readBuffer_waits h hf, fun h hp => ?_,
    fun target fill n h hreq ht hfill hn =>
      blockStep_pad_waits h (latchedPadding_some.mpr ⟨hreq, ht, hfill⟩) hn hf, fun h hc => ?_⟩
  · obtain ⟨padReq, hp⟩ := Option.isSome_iff_exists.mp hp
    exact blockStep_openAppend_waits h hp
  · obtain ⟨crc, hc⟩ := Option.isSome_iff_exists.mp hc
    exact blockStep_writeCrc_waits h hc hf

/-! ### How a run ends (R127, R129, R149) -/

/-- FILE when the run starts; absent counts as empty. -/
def startFile (s : State) : List Byte := s.host.file.getD []

/-- The pad of a run with the latched descriptor `d` on an image of `n` bytes: none without padding. -/
def runPad (d : Option (Int × Int)) (n : Nat) : List Byte :=
  match d with
  | some (target, fill) => padOf target fill n
  | none => []

def dataCrc (s : State) : Word := crc32 s.params.byteOrder (startFile s)

/-- The CRC a run started in `s` appends: with padding that of the pad alone (R123). -/
def lastCrc (d : Option (Int × Int)) (s : State) : Word :=
  if d = none then dataCrc s else crc32 s.params.byteOrder (runPad d (startFile s).length)

/-- FILE with the pad appended. -/
def paddedFile (d : Option (Int × Int)) (s : State) : List Byte :=
  startFile s ++ runPad d (startFile s).length

/-- FILE and TOOL_CRC of a run that `s` started and cause `c` ended, by the table of R149. -/
def failureLeaves (d : Option (Int × Int)) (s : State) (c : RunFailure) (u : State) : Prop :=
  match c with
  | .fileOpenErrorRead | .invalidPaddingConfig | .unalignedImageSize | .readError =>
    u.host.file = s.host.file ∧ u.regs.toolCrc = s.regs.toolCrc
  | .alreadyChecksummed =>
    u.host.file = s.host.file ∧ u.regs.toolCrc = some (dataCrc s) ∧ dataCrc s = 0#32 ∧ d = none
  | .fileOpenErrorAppend => u.host.file = s.host.file ∧ u.regs.toolCrc = some (dataCrc s)
  | .writeErrorPad =>
    ∃ g, g.length < (runPad d (startFile s).length).length ∧ u.host.file = some (startFile s ++ g) ∧
      u.regs.toolCrc = some (lastCrc d s)
  | .writeErrorCrc =>
    ∃ g, g.length < 4 ∧ u.host.file = some (paddedFile d s ++ g) ∧ u.regs.toolCrc = some (lastCrc d s)

/-- FILE and TOOL_CRC of a run that `s` started and that is DONE, by the table of R149. -/
def successLeaves (d : Option (Int × Int)) (s u : State) : Prop :=
  u.regs.toolCrc = some (lastCrc d s) ∧ s.host.file = some (startFile s) ∧
    u.host.file = some (paddedFile d s ++ bytes32 s.params.byteOrder (lastCrc d s))

/-- FILE and TOOL_CRC of a run that `s` started, by the sequencer state it has reached. From ZERO_CRC_CHECK to
OPEN_APPEND the invariant says that TOOL_CRC is the CRC of the data. -/
def runLeaves (d : Option (Int × Int)) (s : State) (q : SeqState) (u : State) : Prop :=
  match q with
  | .openRead | .sizeValidate | .readBuffer | .computeCrc =>
    u.host.file = s.host.file ∧ u.regs.toolCrc = s.regs.toolCrc
  | .zeroCrcCheck | .openAppend | .pad => u.host.file = s.host.file
  | .writeCrc =>
    u.regs.toolCrc = some (lastCrc d s) ∧ s.host.file = some (startFile s) ∧ u.host.file = some (paddedFile d s)
  | .done => successLeaves d s u
  | .idle | .start | .fail => False

/-- Where a run that `s` started with the descriptor `d` stands: at a sequencer state, or at one of its two ends. -/
inductive RunStage (d : Option (Int × Int)) (s : State) : State → Prop
  | runs {u : State} (q : SeqState) (hr : runsAt q u) (hl : runLeaves d s q u) : RunStage d s u
  | succeeded {u : State} (hr : runsAt .done u) (hl : successLeaves d s u) : RunStage d s (runDone u)
  | failed {u : State} (c : RunFailure) (hh : halted u = false) (hl : failureLeaves d s c u) :
    RunStage d s (failExit c u)

/-- A state of a run that `s` started with the descriptor `d`, while the host makes no further move. -/
structure RunFrom (d : Option (Int × Int)) (s u : State) : Prop where
  operands : toolOperands s = some ⟨d⟩
  coherent : Coherent u
  script : u.host.script = []
  params : u.params = s.params
  latched : latchedPadding u = .ok d
  stage : RunStage d s u

theorem RunStage.of_failExit {d : Option (Int × Int)} {s u : State} {q : SeqState} (hr : runsAt q u)
    (c : RunFailure) (v : State) (hs : v.status = u.status) (hl : failureLeaves d s c v) :
    RunStage d s (failExit c v) :=
  .failed c (by rw [halted, hs]; exact hr.not_halted) hl

/-- The run goes on to the state its step writes. -/
theorem RunStage.goesTo {d : Option (Int × Int)} {s u v : State} {q q' : SeqState} (hr : runsAt q u)
    (hs : v.status = u.status) (hw : v.engine.widx = none) (hq : v.regs.seqState = q')
    (hl : runLeaves d s q' v) : RunStage d s v :=
  .runs q' (hr.goesTo hs hw hq) hl

theorem startFile_eq {s : State} {file : List Byte} (h : s.host.file = some file) : startFile s = file := by
  rw [startFile, h, Option.getD_some]

/-- The descriptor a command's operands give is a register's target (R71). -/
theorem toolOperands_target {s : State} {target fill : Int} (h : toolOperands s = some ⟨some (target, fill)⟩) :
    ∃ v : Dword, target = v.toInt := by
  unfold toolOperands at h
  split at h
  · cases h
  · cases h
  · split at h
    · rename_i v _ _ _; cases h; exact ⟨v, rfl⟩
    · cases h

theorem BlockCase.script_eq {s t : State} (hc : BlockCase s t) : t.host.script = s.host.script := by
  cases hc <;> rfl

theorem BlockCase.latchedPadding_eq {s t : State} (hc : BlockCase s t) : latchedPadding t = latchedPadding s := by
  obtain ⟨hreq, htarget, hfill⟩ := hc.latched_eq
  simp only [latchedPadding, hreq, htarget, hfill]

theorem RunFrom.leaves {d : Option (Int × Int)} {s u : State} {q : SeqState} (h : RunFrom d s u)
    (hr : runsAt q u) : runLeaves d s q u := by
  cases h.stage with
  | runs q' hr' hl =>
    obtain rfl : q' = q := hr'.seqState.symm.trans hr.seqState
    exact hl
  | succeeded | failed => cases hr.busy

theorem RunFrom.descriptor_eq {d d' : Option (Int × Int)} {s u : State} (h : RunFrom d s u)
    (hd : latchedPadding u = .ok d') : d = d' :=
  Except.ok.inj (h.latched.symm.trans hd)

theorem computesAt.enginePending {l i : Dword} {s : State} (h : computesAt l i s) : Machine.enginePending i s := by
  obtain ⟨hh, hb, hi, -⟩ := h
  exact ⟨hh, hb, hi⟩

/-- No ENG_CRC32 computes during a run or after its end. -/
theorem RunFrom.not_enginePending {d : Option (Int × Int)} {s u : State} {i : Dword} (h : RunFrom d s u) :
    ¬enginePending i u := by
  rintro ⟨-, hb, hi⟩
  cases h.stage with
  | runs q hr hl => rw [hr.widx] at hi; cases hi
  | succeeded | failed => cases hb

/-- TOOL_CRC is the CRC of the data where the invariant has it as that of FILE and FILE is as at the start. -/
theorem RunFrom.toolCrc_eq_dataCrc {d : Option (Int × Int)} {s u : State} {file : List Byte} (h : RunFrom d s u)
    (hs : u.host.file = s.host.file) (hf : u.host.file = some file)
    (hc : u.regs.toolCrc = some (crc32 u.params.byteOrder file)) : u.regs.toolCrc = some (dataCrc s) := by
  rw [hc, dataCrc, startFile_eq (hs.symm.trans hf), h.params]

/-- In PAD, IMG_SIZE holds the size FILE had at the start: SIZE_VALIDATE bounded it by the target (R118). -/
theorem RunFrom.toNat_imgSize {target fill : Int} {s u : State} {n : Dword} (h : RunFrom (some (target, fill)) s u)
    (hr : runsAt .pad u) (hn : u.regs.imgSize = some n) : n.toNat = (startFile s).length := by
  obtain ⟨v, rfl⟩ := toolOperands_target h.operands
  obtain ⟨-, -, -, -, -, -, file, hf, hsize, -, -, hok⟩ := h.coherent.runInvAt hr
  obtain ⟨hreq, htarget, hfill⟩ := latchedPadding_some.mp h.latched
  obtain rfl : n = BitVec.ofNat 64 file.length := Option.some_inj.mp (hn.symm.trans hsize)
  rw [toNat_imgSize_of_padOk (hok _ _ hreq htarget hfill), startFile_eq ((h.leaves hr).symm.trans hf)]

/-- The pad and its CRC, as PAD computes them from IMG_SIZE on the built table, are the run's. -/
theorem RunFrom.pad_eq {target fill : Int} {s u : State} {n : Dword} {tab : ByteTable}
    (h : RunFrom (some (target, fill)) s u) (hr : runsAt .pad u) (hn : u.regs.imgSize = some n)
    (htab : builtTable u = some tab) :
    padOf target fill n.toNat = runPad (some (target, fill)) (startFile s).length ∧
      revw tab (accAfter tab u.params.byteOrder (padOf target fill n.toNat)) = lastCrc (some (target, fill)) s := by
  obtain rfl : revTable = tab := Option.some_inj.mp ((h.coherent.builtTable_of_runsAt hr).symm.trans htab)
  rw [revw_accAfter, h.toNat_imgSize hr hn, h.params]
  exact ⟨rfl, rfl⟩

/-- A run goes on or ends as the table of R149 says, by the outcomes of a step of the block. -/
theorem BlockCase.runStage {d : Option (Int × Int)} {s u v : State} (hc : BlockCase u v) (h : RunFrom d s u) :
    RunStage d s v := by
  cases hc with
  | stays => exact h.stage
  | engineFault i c hp => exact absurd hp h.not_enginePending
  | wordStep l i tab a w hcomp => exact absurd hcomp.enginePending h.not_enginePending
  | finalStep l i tab a hcomp => exact absurd hcomp.enginePending h.not_enginePending
  | openReadFails hr => exact .of_failExit hr .fileOpenErrorRead _ rfl (h.leaves hr)
  | openReadOpens hr => exact .goesTo hr rfl hr.widx rfl (h.leaves hr)
  | sizeStuck hr => exact .goesTo hr rfl hr.widx hr.seqState (h.leaves hr)
  | sizeBadPadding hr => exact .of_failExit hr .invalidPaddingConfig _ rfl (h.leaves hr)
  | sizeUnaligned hr => exact .of_failExit hr .unalignedImageSize _ rfl (h.leaves hr)
  | sizeValid hr => exact .goesTo hr rfl hr.widx rfl (h.leaves hr)
  | readFails hr => exact .of_failExit hr .readError _ rfl (h.leaves hr)
  | readReads hr => exact .goesTo hr rfl hr.widx rfl (h.leaves hr)
  | computeFaults hr hnone | padFaults hr hnone => rw [h.coherent.builtTable_of_runsAt hr] at hnone; cases hnone
  | computes hr =>
    obtain ⟨hfile, -⟩ := h.leaves hr
    exact .goesTo hr rfl rfl rfl hfile
  | zeroCrcFails hr hzero hreq =>
    have hfile := h.leaves hr
    obtain ⟨-, -, -, -, -, file, hf, -, hcrc⟩ := h.coherent.runInvAt hr
    have hdata := h.toolCrc_eq_dataCrc hfile hf hcrc
    exact .of_failExit hr .alreadyChecksummed _ rfl ⟨hfile, hdata, Option.some_inj.mp (hdata.symm.trans hzero),
      h.descriptor_eq (latchedPadding_none hreq)⟩
  | zeroCrcPasses hr => exact .goesTo hr rfl hr.widx rfl (h.leaves hr)
  | openAppendFails hr =>
    obtain ⟨-, -, -, -, -, file, hf, -, hcrc, -⟩ := h.coherent.runInvAt hr
    exact .of_failExit hr .fileOpenErrorAppend _ rfl ⟨h.leaves hr, h.toolCrc_eq_dataCrc (h.leaves hr) hf hcrc⟩
  | openAppendOpens hr padReq hreq =>
    have hfile := h.leaves hr
    cases padReq with
    | true => exact .goesTo hr rfl hr.widx rfl hfile
    | false =>
      obtain rfl := h.descriptor_eq (latchedPadding_none hreq)
      obtain ⟨-, -, -, -, -, file, hf, -, hcrc, -⟩ := h.coherent.runInvAt hr
      obtain rfl := startFile_eq (hfile.symm.trans hf)
      have hpadded : paddedFile none s = startFile s := List.append_nil _
      exact .goesTo hr rfl hr.widx rfl
        ⟨h.toolCrc_eq_dataCrc hfile hf hcrc, hfile.symm.trans hf, hpadded.symm ▸ hf⟩
  | padWrites hr tab htab target fill n file a hd hn hf =>
    obtain rfl := h.descriptor_eq hd
    obtain ⟨hpad, hcrc⟩ := h.pad_eq hr hn htab
    have hstart : s.host.file = some file := (h.leaves hr).symm.trans hf
    obtain rfl := startFile_eq hstart
    exact .goesTo hr rfl rfl rfl ⟨congrArg some hcrc, hstart, by rw [paddedFile, ← hpad]⟩
  | padShort hr tab htab target fill n file g hd hn hf hg =>
    obtain rfl := h.descriptor_eq hd
    obtain ⟨hpad, hcrc⟩ := h.pad_eq hr hn htab
    obtain rfl := startFile_eq ((h.leaves hr).symm.trans hf)
    exact .of_failExit hr .writeErrorPad _ rfl ⟨g, hpad ▸ hg, rfl, congrArg some hcrc⟩
  | crcWrites hr crc file hc hf =>
    obtain ⟨hlast, hstart, hpadded⟩ := h.leaves hr
    obtain rfl : crc = lastCrc d s := Option.some_inj.mp (hc.symm.trans hlast)
    obtain rfl : file = paddedFile d s := Option.some_inj.mp (hf.symm.trans hpadded)
    exact .goesTo hr rfl hr.widx rfl ⟨hlast, hstart, by rw [h.params]⟩
  | crcShort hr crc file g hc hf hg =>
    obtain ⟨hlast, -, hpadded⟩ := h.leaves hr
    obtain rfl : file = paddedFile d s := Option.some_inj.mp (hf.symm.trans hpadded)
    exact .of_failExit hr .writeErrorCrc _ rfl ⟨g, hg, rfl, hlast⟩
  | doneEnds hr => exact .succeeded hr (h.leaves hr)

/-- START begins such a run. -/
theorem Coherent.runFrom {s : State} {d : Option (Int × Int)} (h : Coherent s) (hr : ready s)
    (hs : s.host.script = []) (hops : toolOperands s = some ⟨d⟩) : RunFrom d s (Machine.startRun ⟨d⟩ s) where
  operands := hops
  coherent := h.startRun hr ⟨d⟩
  script := by rw [startRun_host, hs]
  params := startRun_params ⟨d⟩ s
  latched := by cases d <;> rfl
  stage := .runs .openRead (h.quietRun hr (.inl hs) ⟨d⟩).runs (by cases d <;> exact ⟨rfl, rfl⟩)

/-- The host has no move to make, so a step is one of the block. -/
theorem RunFrom.step {d : Option (Int × Int)} {s u v : State} (h : RunFrom d s u) (hstep : Machine.step u = .next v) :
    RunFrom d s v :=
  have hc := blockStep_case ((step_of_emptyScript h.script).symm.trans hstep)
  { operands := h.operands
    coherent := hc.coherent h.coherent
    script := hc.script_eq.trans h.script
    params := hc.params_eq.trans h.params
    latched := hc.latchedPadding_eq.trans h.latched
    stage := hc.runStage h }

/-- Settles O53: every step keeps `RunFrom`, and a run that is no longer busy is at one of its two ends. -/
theorem runsEndAsTheOutcomeTableSays : Obligations.RunsEndAsTheOutcomeTableSays := by
  intro s t u k ⟨d⟩ h hr hs hops hexec hrun hidle
  rw [exec_toolRun_ready hr hops] at hexec
  cases hexec
  have hu : RunFrom d s u := run_induction (fun _ _ hv hstep => hv.step hstep) (h.runFrom hr hs hops) hrun
  cases hu.stage with
  | runs q hruns => rw [hruns.busy] at hidle; cases hidle
  | @succeeded u hruns hl =>
    obtain ⟨hfault, hrefused⟩ := bits_of_not_halted hruns.not_halted
    obtain ⟨hcrc, hstart, hfile⟩ := hl
    exact ⟨hfault, hrefused, rfl, rfl, hruns.seqState, hcrc, hstart, hfile⟩
  | @failed u c hh hl =>
    obtain ⟨hfault, hrefused⟩ := bits_of_not_halted hh
    refine ⟨hfault, hrefused, rfl, rfl, rfl, ?_⟩
    cases c <;> exact hl

end Sys2Proof.Machine
end

section
/-! PROOF. The family 70_reset_and_hazards.md: a run on the output of a run (O57), what a reset leaves (O15), and the
invariant after reset (O50). -/

namespace Sys2Proof.Machine

/-! ### Runs that fail a check (R117, R121) -/

/-- An unpadded run on an image whose CRC is 0 fails in ZERO_CRC_CHECK, its fifth further step. -/
theorem run_alreadyChecksummed {s : State} {file : List Byte} (h : Coherent s) (hr : ready s) (hq : hostQuiet s)
    (hf : s.host.file = some file) (h4 : file.length % 4 = 0) (hx : exceedsMaxImage s.params file.length = false)
    (hc : crc32 s.params.byteOrder file = 0#32) (ha : allSucceed s.host) :
    core.run 5 (startRun ⟨none⟩ s) =
      .next (failExit .alreadyChecksummed (crcComputed file (startRun ⟨none⟩ s))) := by
  obtain ⟨hrun, hcheck⟩ := (h.quietRun hr hq ⟨none⟩).computesCrc (d := none) hf ha hx h4 rfl (by simp) 1
  have hb := blockStep_zeroCrcCheck (padReq := false) hcheck.runs rfl rfl
  rw [if_pos ⟨hc, rfl⟩] at hb
  rw [hrun, hcheck.run_succ 0 hb, run_zero]

/-- A padded run whose descriptor is not valid for the image fails in SIZE_VALIDATE, its second further step. -/
theorem run_invalidPadding {s : State} {file : List Byte} {target fill : Int} (h : Coherent s) (hr : ready s)
    (hq : hostQuiet s) (hf : s.host.file = some file) (hx : exceedsMaxImage s.params file.length = false)
    (hok : padOk target fill file.length ≠ true) (ha : allSucceed s.host) :
    ∃ u, core.run 2 (startRun ⟨some (target, fill)⟩ s) = .next (failExit .invalidPaddingConfig u) ∧
      u.host.file = some file := by
  obtain ⟨hopen, -⟩ := ha
  have h0 := h.quietRun hr hq ⟨some (target, fill)⟩
  have hb1 := blockStep_openRead_opens h0.runs hf (List.cons_head?_tail hopen).symm
  have h1 : QuietRun .sizeValidate _ := h0.step hb1 rfl rfl h0.runs.widx rfl
  have hb2 := blockStep_sizeValidate_checks (d := some (target, fill)) h1.runs hf hx rfl
  rw [if_neg (by simpa using hok)] at hb2
  exact ⟨_, (h0.run_succ 1 hb1).trans (h1.run_succ 0 hb2), hf⟩

/-! ### A run on the output of a run (R179, R180) -/

/-- An image of whole words with a validated pad is whole words again. -/
theorem length_append_padOf_mod {target fill : Int} {file : List Byte} (hok : padOk target fill file.length = true)
    (h4 : file.length % 4 = 0) : (file ++ padOf target fill file.length).length % 4 = 0 := by
  obtain ⟨-, -, h4pad, -⟩ := (padValidationGuaranteesThePad target fill file.length).2 hok h4
  rw [List.length_append]
  omega

/-- Image, pad and CRC that a validated descriptor gives have the target's size. -/
theorem length_padded {target fill : Int} {file : List Byte} (o : ByteOrder) (v : Word)
    (hok : padOk target fill file.length = true) (h4 : file.length % 4 = 0) :
    ((file ++ padOf target fill file.length ++ bytes32 o v).length : Int) = target := by
  obtain ⟨-, -, -, hsize⟩ := (padValidationGuaranteesThePad target fill file.length).2 hok h4
  rw [List.length_append, List.length_append, length_bytes32]
  exact hsize

/-- Whole words with the CRC appended are whole words again. -/
theorem length_append_bytes32_mod {s : List Byte} (o : ByteOrder) (v : Word) (h4 : s.length % 4 = 0) :
    (s ++ bytes32 o v).length % 4 = 0 := by
  rw [List.length_append, length_bytes32]
  omega

/-- No descriptor with the image's own size as its target is valid: the CRC has no room (R118). -/
theorem padOk_ne_true_of_target_eq_length {target fill : Int} {n : Nat} (h : (n : Int) = target) :
    padOk target fill n ≠ true := by
  intro hok
  obtain ⟨-, -, hroom, -⟩ := padOk_iff.mp hok
  omega

/-- An appended word makes the checksum 0 exactly where it is the checksum (R99, R179). -/
theorem crc32_append_bytes32_eq_zero (o : ByteOrder) {s : List Byte} (v : Word) (h4 : s.length % 4 = 0) :
    crc32 o (s ++ bytes32 o v) = 0#32 ↔ crc32 o s = v := by
  rw [crc32_append_bytes32 o v h4, upd_eq_zero]

/-- Settles O57: (a) the residue is 0, (b) the size is the target, (c) the CRC decides. -/
theorem rerunsEndAsTheOutputDecides : Obligations.RerunsEndAsTheOutputDecides := by
  intro s file0 file h hr hq hf h4 hx ha
  refine ⟨fun hreq hout => ?unpaddedOnUnpadded, fun target fill fill0 hreq htarget hfill hok hout => ?sameTarget,
    fun target fill hreq hok hout => ?unpaddedOnPadded⟩
  case unpaddedOnUnpadded =>
    have h4' : file.length % 4 = 0 := hout ▸ length_append_bytes32_mod _ _ h4
    have hzero : crc32 s.params.byteOrder file = 0#32 := hout ▸ residueIsZero _ file0 h4
    exact ⟨_, _, 5, exec_toolRun_ready hr (toolOperands_unpadded hreq),
      run_alreadyChecksummed h hr hq hf h4' hx hzero ha, rfl, rfl, rfl, hf⟩
  case sameTarget =>
    have hsize : (file.length : Int) = target.toInt := hout ▸ length_padded _ _ hok h4
    obtain ⟨u, hrun, hu⟩ := run_invalidPadding (fill := fill.toInt) h hr hq hf hx
      (padOk_ne_true_of_target_eq_length hsize) ha
    exact ⟨_, _, 2, exec_toolRun_ready hr (toolOperands_padded hreq htarget hfill), hrun, rfl, rfl, rfl, hu⟩
  case unpaddedOnPadded =>
    have h4pad := length_append_padOf_mod hok h4
    have h4' : file.length % 4 = 0 := hout ▸ length_append_bytes32_mod _ _ h4pad
    exact ⟨hout ▸ crc32_append_bytes32_eq_zero _ _ h4pad, fun hc =>
      ⟨_, unpaddedEnd file s, 8, exec_toolRun_ready hr (toolOperands_unpadded hreq),
        run_unpadded h hr hq hf h4' hx hc ha, rfl, rfl, rfl⟩⟩

/-! ### Reset (R170, R172) -/

@[simp] theorem Status.word_reset : Status.reset.word = 0#32 := by decide

/-- Settles O15: the step is the reset, and what it leaves is read off `resetBlock`. -/
theorem resetSetsEveryElement : Obligations.ResetSetsEveryElement :=
  fun s rest hs => ⟨resetBlock (withScript s rest), step_of_move hs (stillWaiting_of_ne_wait hs nofun), rfl,
    Status.word_reset, rfl, rfl, rfl, Memory.read_nil, rfl⟩

/-- Settles O50: State.reset is a launch, and a launch meets the invariant. -/
theorem resetMeetsTheInvariant : Obligations.ResetMeetsTheInvariant :=
  ⟨launch_coherent _ _, launch_coherent⟩

end Sys2Proof.Machine
end
